-- ==== Sys2Proof/Word.lean ====
section
/-! DEFINITION. The word of the hardware and its byte-wide fields (00_scope.md rules R6 and R9, 20_memory.md rule R41).
The smallest unit on either stream is one whole 32-bit word, unsigned; the hardware has no byte order (R41). -/

namespace Sys2Proof

/-- R6: `W` = 32. A state word, a raw output, `seed`, `high` and every stream word. -/
abbrev Word := BitVec 32

/-- The binary64 pattern of RAND before it is cut in two result words (42_derived_outputs.md rule R125). -/
abbrev DoubleWord := BitVec 64

end Sys2Proof
end

