-- ==== Sys2Proof/Config.lean ====
section
/-! DEFINITION. What an implementation fixes and the spec leaves open (00_scope.md rule R6).
The one open value is `RESET_STATE` (70_reset_and_hazards.md rule R171).
The spec's own constants (shift amounts, K0 to K2) are not open: they stand beside the rule that uses them, in Machine/. -/

namespace Sys2Proof

/-- R171, U1: the OPEN parameter `RESET_STATE`: what register S0..S3 (index 0..3) holds after the `k`-th reset, reset 0
being the one that puts the machine in `State.reset`.
R171 allows any four words, "the same or different from one reset to the next, including the words it held before the
reset", so it is uninterpreted and takes the number of the reset. That it takes nothing else, so that the words held before
a reset have no influence on those after it, is the model's choice. DESIGN CHOICE, notes/assumptions/1.md. -/
opaque Config.resetState : Nat → Fin 4 → Word

end Sys2Proof
end

