-- ==== Sys2Proof/Syntax.lean ====
section
/-! DEFINITION. The eight commands (30_encoding.md rule R64), one constructor per row of the opcode table, with their
operands: whole payload words (rule R63). -/

namespace Sys2Proof

/-- A command of the opcode map. `ldst` carries every payload its header can announce, not only four words: R64's mask for
LDST is 0xFFFF00FF, "every `len` selects LDST", and the wrong lengths are the rejected format WX of R62. -/
inductive Instr where
  /-- 0x01, `new(seed)`, R90 -/
  | seed (v : Word)
  /-- 0x02, `new_from_state(words)`, R92 -/
  | ldst (words : List Word)
  /-- 0x03, `next()`, R102 -/
  | next
  /-- 0x04, `min()`, R120 -/
  | min
  /-- 0x05, `max()`, R121 -/
  | max
  /-- 0x06, `randint(high)`, R122 -/
  | randint (high : Word)
  /-- 0x07, `rand()`, R124 -/
  | rand
  /-- 0x08, `state()`, R126 -/
  | state
  deriving DecidableEq, Repr

end Sys2Proof
end

