-- ==== Sys2Proof/WellFormed.lean ====
section
/-! DEFINITION. Which terms of `Instr` a command stream can spell (30_encoding.md rules R60 and R63). -/

namespace Sys2Proof

/-- R60: a header announces at most 255 payload words, so an LDST carries at most 255.
The other commands have a fixed number of operand words, each any 32-bit word (R63), so every such term is well formed. -/
def Instr.wellFormed : Instr → Bool
  | .ldst words => decide (words.length ≤ 255)
  | .seed _ | .next | .min | .max | .randint _ | .rand | .state => true

end Sys2Proof
end

