-- ==== Sys2Proof/Decode.lean ====
section
/-! DEFINITION. From command words to instructions and back (30_encoding.md): the header fields, the framing of a command,
the decode function of rule R65, the opcode map of rule R64, and the encoder. -/

namespace Sys2Proof

/-! ## Header and framing (R60, R61) -/

/-- R61: bits [7:0] of a header word. -/
def headerOp (h : Word) : BitVec 8 := h.extractLsb' 0 8

/-- R61: bits [15:8], the number of payload words that follow. -/
def headerLen (h : Word) : BitVec 8 := h.extractLsb' 8 8

/-- R61: bits [31:16], reserved. -/
def headerRsv (h : Word) : BitVec 16 := h.extractLsb' 16 16

/-- R60, R74: the number of payload words is found from the header alone. -/
def payloadLen (h : Word) : Nat := (headerLen h).toNat

/-- R61 the other way round: the header with the given `op` and `len` and `rsv` = 0. -/
def mkHeader (op len : BitVec 8) : Word := 0#16 ++ len ++ op

/-- R60: a header word and the payload words received with it. -/
structure Command where
  header  : Word
  payload : List Word
  deriving DecidableEq, Repr

/-- The command's words in stream order. -/
def Command.words (c : Command) : List Word := c.header :: c.payload

/-- R67: the last payload word has been received. A buffer with more words than announced, which no run reaches, counts as
complete too (DESIGN CHOICE, notes/assumptions/15.md). -/
def Command.complete (c : Command) : Bool := decide (payloadLen c.header ≤ c.payload.length)

/-! ## The decode function (R65) -/

/-- Why a list of words is no command (the names are the model's, DESIGN CHOICE, notes/assumptions/14.md). The first three are the three causes of R66, all answered ILLEGAL_COMMAND;
`incomplete` is a list that ends inside a command (R67), which is not answered at all. -/
inductive DecodeError where
  /-- R65 test 1 -/
  | reservedNotZero
  /-- R65 test 2 -/
  | unassignedOpcode
  /-- R65 test 4 -/
  | wrongLength
  /-- R67: fewer words than the header announces, or no header -/
  | incomplete
  deriving DecidableEq, Repr

/-- R64: the required `len` of an assigned opcode. -/
def requiredLen (op : Nat) : Nat :=
  if op = 1 ∨ op = 6 then 1 else if op = 2 then 4 else 0

/-- R65 test 5: the command of R64 with its payload, for every opcode but LDST. -/
def commandOf (op : Nat) (payload : List Word) : Except DecodeError Instr :=
  match payload with
  | [] =>
    if op = 3 then .ok .next
    else if op = 4 then .ok .min
    else if op = 5 then .ok .max
    else if op = 7 then .ok .rand
    else if op = 8 then .ok .state
    else .error .wrongLength
  | [w] =>
    if op = 1 then .ok (.seed w)
    else if op = 6 then .ok (.randint w)
    else .error .wrongLength
  | _ :: _ :: _ => .error .wrongLength

/-- R65, tests in the spec's order. Test 3 selects LDST whatever the length (R64's mask 0xFFFF00FF); its length is checked
by the meaning of LDST, which raises INVALID_STATE (R92, R93). DEDUCED, notes/assumptions/9.md. -/
def decodeCommand (c : Command) : Except DecodeError Instr :=
  let op := (headerOp c.header).toNat
  if headerRsv c.header ≠ 0 then .error .reservedNotZero
  else if op = 0 ∨ 9 ≤ op then .error .unassignedOpcode
  else if op = 2 then .ok (.ldst c.payload)
  else if payloadLen c.header ≠ requiredLen op then .error .wrongLength
  else commandOf op c.payload

/-- R60, R67: the first command of a stream and the words after it; `none` when the stream ends inside it. -/
def takeCommand : List Word → Option (Command × List Word)
  | [] => none
  | h :: rest =>
    if rest.length < payloadLen h then none
    else some (⟨h, rest.take (payloadLen h)⟩, rest.drop (payloadLen h))

/-- The decoder: the first instruction of a list of words and the words that follow it. -/
def decode (ws : List Word) : Except DecodeError (Instr × List Word) :=
  match takeCommand ws with
  | none => .error .incomplete
  | some (c, rest) =>
    match decodeCommand c with
    | .ok i => .ok (i, rest)
    | .error e => .error e

/-! ## The opcode map and the encoder (R62, R64) -/

/-- One row of R64: the decoder tests `header &&& mask = value`. -/
structure OpcodeRow where
  mnemonic : String
  op       : BitVec 8
  mask     : Word
  value    : Word
  deriving DecidableEq, Repr

/-- R64, with the mask and match value it states for each row. -/
def opcodeTable : List OpcodeRow :=
  [⟨"SEED",    0x01#8, 0xFFFFFFFF#32, 0x00000101#32⟩,
   ⟨"LDST",    0x02#8, 0xFFFF00FF#32, 0x00000002#32⟩,
   ⟨"NEXT",    0x03#8, 0xFFFFFFFF#32, 0x00000003#32⟩,
   ⟨"MIN",     0x04#8, 0xFFFFFFFF#32, 0x00000004#32⟩,
   ⟨"MAX",     0x05#8, 0xFFFFFFFF#32, 0x00000005#32⟩,
   ⟨"RANDINT", 0x06#8, 0xFFFFFFFF#32, 0x00000106#32⟩,
   ⟨"RAND",    0x07#8, 0xFFFFFFFF#32, 0x00000007#32⟩,
   ⟨"STATE",   0x08#8, 0xFFFFFFFF#32, 0x00000008#32⟩]

/-- The row whose mask and match value a header fits, if any. -/
def opcodeRow (h : Word) : Option OpcodeRow := opcodeTable.find? fun r => h &&& r.mask = r.value

/-- R64: the opcode of a command. -/
def Instr.opcode : Instr → BitVec 8
  | .seed _ => 0x01
  | .ldst _ => 0x02
  | .next => 0x03
  | .min => 0x04
  | .max => 0x05
  | .randint _ => 0x06
  | .rand => 0x07
  | .state => 0x08

/-- R62, R63: the payload words of a command, in stream order. -/
def Instr.operands : Instr → List Word
  | .seed v => [v]
  | .ldst words => words
  | .randint high => [high]
  | .next | .min | .max | .rand | .state => []

/-- R60 to R64: the header that announces the operands, and the operands. -/
def encodeCommand (i : Instr) : Command :=
  ⟨mkHeader i.opcode (BitVec.ofNat 8 i.operands.length), i.operands⟩

/-- The words of a well-formed instruction. -/
def encode (i : Instr) : List Word := (encodeCommand i).words

/-! ## The host's numbering of an instruction's bits -/

/-- Word `k` of an instruction whose bits are `w`, bit 0 being the least significant bit of the first word
(PRESUMED, notes/assumptions/10.md: the host's numbering; the hardware itself has whole words and no byte order, R41). -/
def tableWord (w k : Nat) : Word := BitVec.ofNat 32 (w >>> (32 * k))

/-- The words of the instruction whose bits below `nbits` are those of `w` and above `nbits` are 0: the header and as many
payload words as it announces (R60). -/
def tableWords (nbits w : Nat) : List Word :=
  let v := w % 2 ^ nbits
  (List.range (1 + payloadLen (tableWord v 0))).map (tableWord v)

/-- The instruction the decoder reads from an instruction's bits. -/
def decodeTableWord (nbits w : Nat) : Option Instr :=
  match decode (tableWords nbits w) with
  | .ok (i, _) => some i
  | .error _ => none

end Sys2Proof
end

