-- ==== Sys2Proof/Machine/State.lean ====
section
/-! DEFINITION. The state of one engine instance: the `state_register_file` (10_state.md rules R20 to R23) and, because a
step of the interface takes a state and nothing else, the two streams that R73 puts around it.
The architectural state is the field `regs` alone (R20); INVENTORY.md lists every field. -/

namespace Sys2Proof.Machine

/-- R20: the four state words, "ordered as `(s0, s1, s2, s3)`". Every one of the 2^128 values is legal (R23). -/
structure RegFile where
  /-- the oldest word (R21) -/
  s0 : Word
  s1 : Word
  s2 : Word
  /-- the newest word (R21) -/
  s3 : Word
  deriving DecidableEq, Repr

/-- What the outside does to the engine at its ports (30_encoding.md rule R73, 60_exceptions.md rule R155), one event at a
time in the order it happens. -/
inductive HostEvent where
  /-- a word is transferred on the command stream -/
  | word (w : Word)
  /-- the host accepts the response word presented, if one is (`rsp_ready`) -/
  | accept
  /-- `rst` is sampled high (70_reset_and_hazards.md rule R170) -/
  | reset
  deriving DecidableEq, Repr

/-- R69: the status codes a response can carry. -/
inductive Status where
  | ok
  | invalidState
  | illegalCommand
  deriving DecidableEq, Repr

/-- R140: the two exceptions. -/
inductive Exc where
  /-- LDST with `len` other than 4 (R141) -/
  | invalidState
  /-- a header that spells no command (R142) -/
  | illegalCommand
  deriving DecidableEq, Repr

/-- Why a step would stop with a fault. It has no constructor: R143 "No other error exists", every error of the spec is a
response (R146), and a read of the registers before any command wrote them runs on `Config.resetState` (R173,
notes/assumptions/1.md). DEDUCED, notes/assumptions/13.md. Safe: no run ends in a fault. -/
inductive Fault where
  deriving DecidableEq, Repr

/-- Why a step would be refused. -/
inductive Refusal where
  /-- raised by an arm of `exec` whose instruction has no meaning; no arm does. Safe. -/
  | notModelled (mnemonic : String)
  deriving DecidableEq, Repr

/-- The machine. -/
structure State where
  /-- R20: S0, S1, S2, S3, the entire architectural state -/
  regs      : RegFile
  /-- R29: interface state, the words of the current command received so far; `none` between commands -/
  receiving : Option Command
  /-- R73, R155: what the host does next, oldest first (DESIGN CHOICE, notes/assumptions/2.md and 4.md) -/
  inbound   : List HostEvent
  /-- R73, R170: response words not yet transferred, oldest first (DESIGN CHOICE, notes/assumptions/5.md) -/
  outbound  : List Word
  /-- R73: the response stream, every word transferred so far, oldest first -/
  responses : List Word
  /-- the model's own counter of `rst` events, read only to pick the free `RESET_STATE` (notes/assumptions/1.md) -/
  resets    : Nat
  deriving DecidableEq, Repr

/-- R171: S0..S3 after the `k`-th reset, unspecified; a function of `k` alone (DESIGN CHOICE, notes/assumptions/1.md). -/
def RegFile.afterReset (k : Nat) : RegFile :=
  ⟨Config.resetState k 0, Config.resetState k 1, Config.resetState k 2, Config.resetState k 3⟩

/-- R170, R171: the machine right after reset, waiting for the first command, with nothing on either stream. -/
def State.reset : State :=
  { regs := RegFile.afterReset 0, receiving := none, inbound := [], outbound := [], responses := [], resets := 0 }

/-- The outcome of a step or of a meaning. -/
abbrev Outcome := Host.Outcome State Fault Refusal

end Sys2Proof.Machine
end

