-- ==== Sys2Proof/Machine/Datapath.lean ====
section
/-! DEFINITION. The `shift_xor_rotate_datapath` (41_next_and_datapath.md rules R100, R101 and R104). -/

namespace Sys2Proof.Machine

/-- R6 `SHL_A`. -/
def shlA : Nat := 11
/-- R6 `SHR_B`. -/
def shrB : Nat := 8
/-- R6 `SHR_C`. -/
def shrC : Nat := 19

/-- R100: the datapath function, `a` the oldest word and `d` the newest. Shifts are logical and 32 bits wide (R9). -/
def datapath (a d : Word) : Word :=
  let t1 := a ^^^ (a <<< shlA)
  let t2 := t1 ^^^ (t1 >>> shrB)
  let u := d ^^^ (d >>> shrC)
  u ^^^ t2

/-- R101: the new word N of a step. -/
def RegFile.newWord (S : RegFile) : Word := datapath S.s0 S.s3

/-- R101: the register rotation, all four writes from the values before the step. -/
def RegFile.advance (S : RegFile) : RegFile := ⟨S.s1, S.s2, S.s3, S.newWord⟩

/-- R104: undoing `t ^^^ (t >>> 8)`. -/
def undoShr8 (t : Word) : Word := t ^^^ (t >>> 8) ^^^ (t >>> 16) ^^^ (t >>> 24)

/-- R104: undoing `a ^^^ (a <<< 11)`. -/
def undoShl11 (t : Word) : Word := t ^^^ (t <<< 11) ^^^ (t <<< 22)

/-- R104 UNSTEP: the state before the step. No command performs it. -/
def RegFile.unstep (S : RegFile) : RegFile :=
  let d := S.s2
  ⟨undoShl11 (undoShr8 (S.s3 ^^^ d ^^^ (d >>> 19))), S.s0, S.s1, S.s2⟩

/-- R21: the 128-bit view X = {S3, S2, S1, S0} of the linear-algebra remarks. No command transfers it. -/
def RegFile.view (S : RegFile) : BitVec 128 := S.s3 ++ S.s2 ++ S.s1 ++ S.s0

end Sys2Proof.Machine
end

