-- ==== Sys2Proof/Machine/Flags.lean ====
section
/-! DEFINITION. The hardware has no flags (10_state.md rule R25): no command leaves a carry, zero, overflow or error bit.
What a command reports, it reports in the status word of its response (30_encoding.md rules R68 and R69). -/

namespace Sys2Proof.Machine

/-- R69: the number of a status. -/
def Status.code : Status → BitVec 8
  | .ok => 0x00
  | .invalidState => 0x01
  | .illegalCommand => 0x02

/-- R140: the status an exception is answered with. -/
def Exc.status : Exc → Status
  | .invalidState => .invalidState
  | .illegalCommand => .illegalCommand

/-- R68: `status` in bits [7:0], `rlen` in bits [15:8], bits [31:16] zero. -/
def statusWord (st : Status) (rlen : Nat) : Word := 0#16 ++ BitVec.ofNat 8 rlen ++ st.code

end Sys2Proof.Machine
end

