-- ==== Sys2Proof/Machine/Operands.lean ====
section
/-! DEFINITION. Operands and results as words: the word order of multi-word values (20_memory.md rule R41), the modulus of
RANDINT (42_derived_outputs.md rule R122) and the binary64 pattern of RAND (rule R125). Every operand is a whole payload
word, exactly as received (30_encoding.md rule R63): there is no addressing mode (R129). -/

namespace Sys2Proof.Machine

/-- R41: a state travels first word S0, last word S3. -/
def RegFile.words (S : RegFile) : List Word := [S.s0, S.s1, S.s2, S.s3]

/-- R41, R93: four words in that order, and no other number of them, make a state. -/
def RegFile.ofWords : List Word → Option RegFile
  | [w0, w1, w2, w3] => some ⟨w0, w1, w2, w3⟩
  | _ => none

/-- R122: `N mod (high + 1)`, the sum formed without wrap, the remainder that of unsigned integers. -/
def boundedDraw (n high : Word) : Word := BitVec.ofNat 32 (n.toNat % (high.toNat + 1))

/-- R125 `f64_of_ratio`: the binary64 pattern of `N / 2^32`. The layout is PRESUMED by the spec, notes/assumptions/12.md. -/
def f64OfRatio (n : Word) : DoubleWord :=
  if n = 0 then 0
  else
    let k := n.toNat.log2
    let exponent := 991 + k
    let fraction := (n.toNat - 2 ^ k) * 2 ^ (52 - k)
    BitVec.ofNat 64 (exponent * 2 ^ 52 + fraction)

/-- R41: a binary64 pattern travels as B[31:0], then B[63:32]. -/
def halves (b : DoubleWord) : List Word := [b.extractLsb' 0 32, b.extractLsb' 32 32]

end Sys2Proof.Machine
end

