-- ==== Sys2Proof/Machine/Ops.lean ====
section
/-! DEFINITION. The shared operations: writing the registers, the step, the response, raising an exception, and the two
things the outside can do besides sending a word. There are no memory operations (20_memory.md rule R40). -/

namespace Sys2Proof.Machine

/-- R10 `S <- (a, b, c, d)`: all four registers at once. -/
def State.setRegs (S : RegFile) (s : State) : State := { s with regs := S }

/-- R101 `STEP()`: the state after it; the word it returns is `s.regs.newWord`. -/
def State.stepRegs (s : State) : State := s.setRegs s.regs.advance

/-- R10, R68 `respond`: one status word, then the result words, after everything already waiting to be sent (R46). -/
def State.respond (st : Status) (results : List Word) (s : State) : State :=
  { s with outbound := s.outbound ++ statusWord st results.length :: results }

/-- R146: raising an exception. The registers stay, the response is the code with no result words, and nothing is saved,
masked or redirected. There is no return to write beside it: R147 "There is no return instruction and nothing to return
from"; the next command is decoded as usual. -/
def raise (e : Exc) (s : State) : Outcome := .next (s.respond e.status [])

/-- R73: the host accepts the oldest response word presented; when none is, no transfer takes place. -/
def State.acceptWord (s : State) : State :=
  match s.outbound with
  | [] => s
  | w :: rest => { s with outbound := rest, responses := s.responses ++ [w] }

/-- R170: `rst` sampled high. The partly received command and the unsent response words are abandoned, the next word is a
header, S0..S3 are unspecified; words already sent stay sent (R177). That the new words depend on the number of the reset alone, and not on the
words held before it, is the model's choice: R171 admits hardware that keeps those (DESIGN CHOICE, UNSAFE for claims that
compare histories, notes/assumptions/1.md). Notes/assumptions 4 (DESIGN CHOICE) and 6 (DEDUCED). -/
def State.resetPin (s : State) : State :=
  { s with
    regs := RegFile.afterReset (s.resets + 1), receiving := none, outbound := [], resets := s.resets + 1 }

end Sys2Proof.Machine
end

