-- ==== Sys2Proof/Machine/Construction.lean ====
section
/-! DEFINITION. The construction commands SEED and LDST (40_construction.md). -/

namespace Sys2Proof.Machine

/-- R6, R91: 521288629. -/
def seedK0 : Word := 0x1F123BB5
/-- R6, R91: 362436069. -/
def seedK1 : Word := 0x159A55E5
/-- R6, R91: 123456789; no literal of the spec's source pins it (N3; PRESUMED by the spec, notes/assumptions/11.md). -/
def seedK2 : Word := 0x075BCD15

/-- R91 `expand(seed)`. -/
def expandSeed (v : Word) : RegFile := ⟨seedK0, seedK1, seedK2, v⟩

/-- R90 SEED. -/
def execSeed (v : Word) (s : State) : Outcome := .next ((s.setRegs (expandSeed v)).respond .ok [])

/-- R92, R93 LDST: four words replace the registers together; any other number raises INVALID_STATE, nothing written. -/
def execLdst (words : List Word) (s : State) : Outcome :=
  match RegFile.ofWords words with
  | some S => .next ((s.setRegs S).respond .ok [])
  | none => raise .invalidState s

end Sys2Proof.Machine
end

