-- ==== Sys2Proof/Machine/Extraction.lean ====
section
/-! DEFINITION. The extraction commands NEXT (41_next_and_datapath.md rule R102), RANDINT and RAND (42_derived_outputs.md
rules R122 and R124): each performs exactly one step (R107). -/

namespace Sys2Proof.Machine

/-- R102 NEXT. -/
def execNext (s : State) : Outcome := .next (s.stepRegs.respond .ok [s.regs.newWord])

/-- R122 RANDINT. -/
def execRandint (high : Word) (s : State) : Outcome :=
  .next (s.stepRegs.respond .ok [boundedDraw s.regs.newWord high])

/-- R124 RAND. -/
def execRand (s : State) : Outcome := .next (s.stepRegs.respond .ok (halves (f64OfRatio s.regs.newWord)))

end Sys2Proof.Machine
end

