-- ==== Sys2Proof/Machine/Readout.lean ====
section
/-! DEFINITION. The commands that change nothing: MIN, MAX and STATE (42_derived_outputs.md rules R120, R121, R126). -/

namespace Sys2Proof.Machine

/-- R6 `MIN_VALUE`. -/
def minValue : Word := 0x00000000
/-- R6 `MAX_VALUE`. -/
def maxValue : Word := 0xFFFFFFFF

/-- R120 MIN. -/
def execMin (s : State) : Outcome := .next (s.respond .ok [minValue])

/-- R121 MAX. -/
def execMax (s : State) : Outcome := .next (s.respond .ok [maxValue])

/-- R126 STATE. -/
def execState (s : State) : Outcome := .next (s.respond .ok s.regs.words)

end Sys2Proof.Machine
end

