-- ==== Sys2Proof/Machine/Dispatch.lean ====
section
/-! DEFINITION. One arm per constructor of `Instr` (30_encoding.md rule R64). -/

namespace Sys2Proof.Machine

def exec (i : Instr) (s : State) : Host.Outcome State Fault Refusal :=
  match i with
  | .seed v => Sys2Proof.Machine.execSeed v s
  | .ldst words => Sys2Proof.Machine.execLdst words s
  | .next => Sys2Proof.Machine.execNext s
  | .min => Sys2Proof.Machine.execMin s
  | .max => Sys2Proof.Machine.execMax s
  | .randint high => Sys2Proof.Machine.execRandint high s
  | .rand => Sys2Proof.Machine.execRand s
  | .state => Sys2Proof.Machine.execState s

end Sys2Proof.Machine
end

