-- ==== Sys2Proof/Machine/Fetch.lean ====
section
/-! DEFINITION. Receiving a command: how the events at the ports become the next whole command (30_encoding.md rules R60 and
R67, 10_state.md rule R29, 70_reset_and_hazards.md rules R170 and R177). -/

namespace Sys2Proof.Machine

/-- What receiving comes to. -/
inductive Fetched where
  /-- the last word of command `c` has been received -/
  | command (c : Command) (s : State)
  /-- `rst` was sampled high before that -/
  | wasReset (s : State)
  /-- the host sends nothing more for now -/
  | waiting (s : State)
  deriving DecidableEq, Repr

/-- R60: the word is the header of a new command, or the next payload word of the current one. -/
def Command.receive (w : Word) : Option Command → Command
  | none => ⟨w, []⟩
  | some c => { c with payload := c.payload ++ [w] }

/-- Take events until a command is complete, a reset, or the end of what the host has sent. A command takes effect only
when its last word has arrived (R67); until then its words wait in `receiving` (that the machine waits where the stream
ends, and does not stop, is a DESIGN CHOICE, notes/assumptions/3.md). -/
def fetch : List HostEvent → State → Fetched
  | [], s => .waiting { s with inbound := [] }
  | .accept :: rest, s => fetch rest s.acceptWord
  | .reset :: rest, s => .wasReset { s.resetPin with inbound := rest }
  | .word w :: rest, s =>
    if (Command.receive w s.receiving).complete then
      .command (Command.receive w s.receiving) { s with receiving := none, inbound := rest }
    else fetch rest { s with receiving := some (Command.receive w s.receiving) }

end Sys2Proof.Machine
end

