-- ==== Sys2Proof/Machine/Step.lean ====
section
/-! DEFINITION. One step of the machine: one whole command, received and executed or rejected (00_scope.md rule R7), or one
reset, or, when the host has sent no whole command, the wait for its next word. -/

namespace Sys2Proof.Machine

/-- R65, R66: a whole command is executed, or answered ILLEGAL_COMMAND with no other effect. -/
def runCommand (c : Command) (s : State) : Host.Outcome State Fault Refusal :=
  match decodeCommand c with
  | .ok i => exec i s
  | .error _ => raise .illegalCommand s

/-- R7, R8, R46. -/
def step (s : State) : Host.Outcome State Fault Refusal :=
  match fetch s.inbound s with
  | .command c t => runCommand c t
  | .wasReset t => .next t
  | .waiting t => .next t

/-- `s` with that instruction as the next thing on its command stream: no command is partly received, and the host sends
the instruction's words before anything else (DESIGN CHOICE, notes/assumptions/2.md). -/
def State.withFetchWord (s : State) (nbits w : Nat) : State :=
  { s with receiving := none, inbound := (tableWords nbits w).map .word ++ s.inbound }

end Sys2Proof.Machine
end

