-- ==== Sys2Proof/Safety.lean ====
section
/-! DEFINITION. The terms in which claims about the machine are made: its runs, its invariant, what the host owes it, and the
value of a binary64 pattern. -/

namespace Sys2Proof

/-- R107: NEXT, RANDINT and RAND. -/
def Instr.extracts : Instr → Bool
  | .next | .randint _ | .rand => true
  | .seed _ | .ldst _ | .min | .max | .state => false

end Sys2Proof

namespace Sys2Proof.Machine

/-- The next state of an outcome, if it is one. -/
def nextOf : Host.Outcome State Fault Refusal → Option State
  | .next s => some s
  | .fault _ => none
  | .refused _ => none

/-- `k` steps of the machine. -/
def runSteps : Nat → State → Host.Outcome State Fault Refusal
  | 0, s => .next s
  | k + 1, s =>
    match step s with
    | .next t => runSteps k t
    | .fault r => .fault r
    | .refused r => .refused r

/-- R46, R178: the left fold of `exec` over a list of commands. -/
def runCommands : List Instr → State → Host.Outcome State Fault Refusal
  | [], s => .next s
  | i :: is, s =>
    match exec i s with
    | .next t => runCommands is t
    | .fault r => .fault r
    | .refused r => .refused r

/-- The words of the command under way: none between commands. -/
def State.receivedWords (s : State) : List Word :=
  match s.receiving with
  | none => []
  | some c => c.words

/-- R73: the command words among the host's events. -/
def wordsOf : List HostEvent → List Word
  | [] => []
  | .word w :: evs => w :: wordsOf evs
  | .accept :: evs => wordsOf evs
  | .reset :: evs => wordsOf evs

/-- R29, R60: between steps the receive buffer is empty or holds fewer payload words than its header announces. -/
def State.ReceivingInv (s : State) : Prop :=
  ∀ c, s.receiving = some c → c.payload.length < payloadLen c.header

/-- The fields no command writes: the ports other than the queue of responses, and the model's counter. -/
def SamePorts (s t : State) : Prop :=
  t.receiving = s.receiving ∧ t.inbound = s.inbound ∧ t.responses = s.responses ∧ t.resets = s.resets

/-- R170: `rst` stays low through these events. -/
abbrev NoReset (evs : List HostEvent) : Prop := HostEvent.reset ∉ evs

/-- R125: the number a binary64 pattern stands for, where it is zero or normal; a subnormal, infinity or NaN, which RAND
never returns (R124), has none here. -/
def binary64Value (b : DoubleWord) : Option ℚ :=
  let exponent := (b.extractLsb' 52 11).toNat
  let fraction := (b.extractLsb' 0 52).toNat
  let sign : ℚ := if b.getLsbD 63 then -1 else 1
  if exponent = 0 ∧ fraction = 0 then some 0
  else if exponent = 0 ∨ exponent = 2047 then none
  else some (sign * 2 ^ ((exponent : ℤ) - 1023) * (1 + (fraction : ℚ) / 2 ^ 52))

/-- R172: what the host owes. `initialised` says whether a SEED or a successful LDST has been sent since reset; before
that, no command of the list reads the registers. -/
def obeysBootOrder : Bool → List Instr → Bool
  | _, [] => true
  | _, .seed _ :: is => obeysBootOrder true is
  | initialised, .ldst words :: is => obeysBootOrder (initialised || decide (words.length = 4)) is
  | initialised, .min :: is => obeysBootOrder initialised is
  | initialised, .max :: is => obeysBootOrder initialised is
  | initialised, .next :: is => initialised && obeysBootOrder initialised is
  | initialised, .randint _ :: is => initialised && obeysBootOrder initialised is
  | initialised, .rand :: is => initialised && obeysBootOrder initialised is
  | initialised, .state :: is => initialised && obeysBootOrder initialised is

/-- R172: whether a list of commands leaves the registers written. -/
def initialises : List Instr → Bool
  | [] => false
  | .seed _ :: _ => true
  | .ldst words :: is => decide (words.length = 4) || initialises is
  | .next :: is | .min :: is | .max :: is | .randint _ :: is | .rand :: is | .state :: is => initialises is

end Sys2Proof.Machine
end

