-- ==== Sys2Proof/Certificates/Slice0/Obligations.lean ====
section
/-! DEFINITION. The statements for the provers. Literal words in them are written out from the spec, not taken from the
model's own constants. -/

open Sys2Proof Sys2Proof.Machine

/-! ## The eight commands: result, frame and completion -/

/-- R90, R91. SEED accepts every seed in every state, writes all four words, reads none, makes no step. -/
def Obligations.SeedWritesExpansion : Prop :=
  ∀ (v : Word) (s : State),
    encode (.seed v) = [0x00000101#32, v] ∧
    ∃ t, exec (.seed v) s = .next t ∧
      t.regs = ⟨0x1F123BB5#32, 0x159A55E5#32, 0x075BCD15#32, v⟩ ∧ t.regs ≠ ⟨0, 0, 0, 0⟩ ∧
      t.outbound = s.outbound ++ [0x00000000#32] ∧ SamePorts s t

/-- R92. LDST with four words replaces the registers; with any other number it answers INVALID_STATE and writes nothing. -/
def Obligations.LdstReplacesStateOrRejects : Prop :=
  (∀ (w0 w1 w2 w3 : Word) (s : State),
    encode (.ldst [w0, w1, w2, w3]) = [0x00000402#32, w0, w1, w2, w3] ∧
    ∃ t, exec (.ldst [w0, w1, w2, w3]) s = .next t ∧ t.regs = ⟨w0, w1, w2, w3⟩ ∧
      t.outbound = s.outbound ++ [0x00000000#32] ∧ SamePorts s t) ∧
  (∀ (words : List Word) (s : State), words.length ≠ 4 →
    ∃ t, exec (.ldst words) s = .next t ∧ t.regs = s.regs ∧
      t.outbound = s.outbound ++ [0x00000001#32] ∧ SamePorts s t)

/-- R101, R102. NEXT computes N from S0 and S3, rotates the registers and returns N. -/
def Obligations.NextReturnsNewWord : Prop :=
  encode .next = [0x00000003#32] ∧
  ∀ (s : State),
    let t1 := s.regs.s0 ^^^ (s.regs.s0 <<< 11)
    let t2 := t1 ^^^ (t1 >>> 8)
    let n := (s.regs.s3 ^^^ (s.regs.s3 >>> 19)) ^^^ t2
    ∃ t, exec .next s = .next t ∧ t.regs = ⟨s.regs.s1, s.regs.s2, s.regs.s3, n⟩ ∧
      t.outbound = s.outbound ++ [0x00000100#32, n] ∧ SamePorts s t

/-- R120. MIN returns 0 in every state and changes nothing. -/
def Obligations.MinReturnsZero : Prop :=
  encode .min = [0x00000004#32] ∧
  ∀ s : State, ∃ t, exec .min s = .next t ∧ t.regs = s.regs ∧
    t.outbound = s.outbound ++ [0x00000100#32, 0x00000000#32] ∧ SamePorts s t

/-- R121. MAX returns 2^32 - 1 in every state and changes nothing. -/
def Obligations.MaxReturnsAllOnes : Prop :=
  encode .max = [0x00000005#32] ∧
  ∀ s : State, ∃ t, exec .max s = .next t ∧ t.regs = s.regs ∧
    t.outbound = s.outbound ++ [0x00000100#32, 0xFFFFFFFF#32] ∧ SamePorts s t

/-- R122, R123. RANDINT makes one step exactly as NEXT does and returns `N mod (high + 1)`, for every `high`, the sum without
wrap; no draw is repeated or rejected. -/
def Obligations.RandintReturnsRemainder : Prop :=
  ∀ (high : Word) (s : State),
    encode (.randint high) = [0x00000106#32, high] ∧
    ∃ t r, exec (.randint high) s = .next t ∧
      t.regs = ⟨s.regs.s1, s.regs.s2, s.regs.s3, datapath s.regs.s0 s.regs.s3⟩ ∧
      t.outbound = s.outbound ++ [0x00000100#32, r] ∧
      r.toNat = (datapath s.regs.s0 s.regs.s3).toNat % (high.toNat + 1) ∧ r.toNat ≤ high.toNat ∧ SamePorts s t

/-- R124. RAND makes one step exactly as NEXT does and returns, low word first, a binary64 pattern whose value is exactly
`N / 2^32`, in [0, 1). -/
def Obligations.RandReturnsExactRatio : Prop :=
  encode .rand = [0x00000007#32] ∧
  ∀ s : State, ∃ (t : State) (b : BitVec 64), exec .rand s = .next t ∧
    t.regs = ⟨s.regs.s1, s.regs.s2, s.regs.s3, datapath s.regs.s0 s.regs.s3⟩ ∧
    t.outbound = s.outbound ++ [0x00000200#32, b.extractLsb' 0 32, b.extractLsb' 32 32] ∧
    binary64Value b = some (((datapath s.regs.s0 s.regs.s3).toNat : ℚ) / 2 ^ 32) ∧
    (0 : ℚ) ≤ ((datapath s.regs.s0 s.regs.s3).toNat : ℚ) / 2 ^ 32 ∧
    ((datapath s.regs.s0 s.regs.s3).toNat : ℚ) / 2 ^ 32 < 1 ∧ b.getLsbD 63 = false ∧ SamePorts s t

/-- R126. STATE returns S0, S1, S2, S3 in that order, makes no step and writes nothing. -/
def Obligations.StateReturnsFourWords : Prop :=
  encode .state = [0x00000008#32] ∧
  ∀ s : State, ∃ t, exec .state s = .next t ∧ t.regs = s.regs ∧
    t.outbound = s.outbound ++ [0x00000400#32, s.regs.s0, s.regs.s1, s.regs.s2, s.regs.s3] ∧ SamePorts s t

/-! ## Encoding and decoding -/

/-- Words written out from the opcode map decode to the commands they stand for; the two words R66 names are illegal. That
the three-word LDST decodes to LDST, whose meaning answers INVALID_STATE where R65's test 3 would, is the model's reading
(DEDUCED, notes/assumptions/9.md); the names of the two errors are the model's (DESIGN CHOICE, notes/assumptions/14.md). -/
def Obligations.HandWrittenWordsDecode : Prop :=
  decode [0x00000101#32, 0x0000002A#32] = .ok (.seed 42, []) ∧
  decode [0x00000402#32, 1, 2, 3, 4] = .ok (.ldst [1, 2, 3, 4], []) ∧
  decode [0x00000302#32, 9, 9, 9] = .ok (.ldst [9, 9, 9], []) ∧
  decode [0x00000003#32] = .ok (.next, []) ∧
  decode [0x00000004#32] = .ok (.min, []) ∧
  decode [0x00000005#32] = .ok (.max, []) ∧
  decode [0x00000106#32, 0x00000063#32] = .ok (.randint 99, []) ∧
  decode [0x00000007#32] = .ok (.rand, []) ∧
  decode [0x00000008#32] = .ok (.state, []) ∧
  decode [0x00000000#32] = .error .unassignedOpcode ∧
  decode (List.replicate 256 0xFFFFFFFF#32) = .error .reservedNotZero

/-- Decoding the words of a well-formed instruction gives it back, every operand at every value, whatever follows. -/
def Obligations.DecodeOfEncodeIsIdentity : Prop :=
  ∀ (i : Instr) (rest : List Word), i.wellFormed = true → decode (encode i ++ rest) = .ok (i, rest)

/-- What the decoder accepts is a well-formed instruction, and its words are exactly the encoder's: one spelling each. -/
def Obligations.DecodedWordsAreTheEncoding : Prop :=
  ∀ (ws rest : List Word) (i : Instr), decode ws = .ok (i, rest) → i.wellFormed = true ∧ ws = encode i ++ rest

/-- R65, R145 as the model reads them: the tests in their order, on the number `h` is; the payload has the `len` words R60
gives it. Test 3 differs from R65's pseudocode: op 2 decodes to LDST for every `len`, and LDST's meaning answers
INVALID_STATE (DEDUCED, notes/assumptions/9.md). The names of the three errors are the model's (DESIGN CHOICE,
notes/assumptions/14.md). -/
def Obligations.DecodeFollowsTestOrder : Prop :=
  ∀ (h : Word) (payload rest : List Word),
    let op := h.toNat % 256
    let len := h.toNat / 256 % 256
    let rsv := h.toNat / 65536
    payload.length = len →
    (rsv ≠ 0 → decode (h :: payload ++ rest) = .error .reservedNotZero) ∧
    (rsv = 0 → op = 0 ∨ 9 ≤ op → decode (h :: payload ++ rest) = .error .unassignedOpcode) ∧
    (rsv = 0 → op = 2 → decode (h :: payload ++ rest) = .ok (.ldst payload, rest)) ∧
    (rsv = 0 → op = 1 ∨ op = 6 → len ≠ 1 → decode (h :: payload ++ rest) = .error .wrongLength) ∧
    (rsv = 0 → op ∈ [3, 4, 5, 7, 8] → len ≠ 0 → decode (h :: payload ++ rest) = .error .wrongLength) ∧
    (rsv = 0 → op = 1 → len = 1 → ∃ v, payload = [v] ∧ decode (h :: payload ++ rest) = .ok (.seed v, rest)) ∧
    (rsv = 0 → op = 6 → len = 1 → ∃ v, payload = [v] ∧ decode (h :: payload ++ rest) = .ok (.randint v, rest)) ∧
    (rsv = 0 → op = 3 → len = 0 → decode (h :: payload ++ rest) = .ok (.next, rest)) ∧
    (rsv = 0 → op = 4 → len = 0 → decode (h :: payload ++ rest) = .ok (.min, rest)) ∧
    (rsv = 0 → op = 5 → len = 0 → decode (h :: payload ++ rest) = .ok (.max, rest)) ∧
    (rsv = 0 → op = 7 → len = 0 → decode (h :: payload ++ rest) = .ok (.rand, rest)) ∧
    (rsv = 0 → op = 8 → len = 0 → decode (h :: payload ++ rest) = .ok (.state, rest))

/-- R64: a whole command is the row's instruction exactly when its header fits the row's mask and match value. -/
def Obligations.HeaderSelectsTableRow : Prop :=
  ∀ (c : Command), c.payload.length = payloadLen c.header →
    ∀ row ∈ [(0x01#8, 0xFFFFFFFF#32, 0x00000101#32), (0x02#8, 0xFFFF00FF#32, 0x00000002#32),
             (0x03#8, 0xFFFFFFFF#32, 0x00000003#32), (0x04#8, 0xFFFFFFFF#32, 0x00000004#32),
             (0x05#8, 0xFFFFFFFF#32, 0x00000005#32), (0x06#8, 0xFFFFFFFF#32, 0x00000106#32),
             (0x07#8, 0xFFFFFFFF#32, 0x00000007#32), (0x08#8, 0xFFFFFFFF#32, 0x00000008#32)],
      ((∃ i, decodeCommand c = .ok i ∧ i.opcode = row.1) ↔ c.header &&& row.2.1 = row.2.2)

/-! ## A step: receiving, executing, rejecting -/

/-- When the words of the command under way and the next words of the stream decode to one instruction, the step is that
instruction's `exec`, with those words taken off the stream. The receive buffer may hold none of the words or some. -/
def Obligations.StepRunsDecodedCommand : Prop :=
  ∀ (s : State) (ws : List Word) (evs : List HostEvent) (i : Instr),
    ws ≠ [] → s.inbound = ws.map .word ++ evs → decode (s.receivedWords ++ ws) = .ok (i, []) →
    step s = exec i { s with receiving := none, inbound := evs }

/-- R66, R142, R146: a whole command with an illegal header is answered 0x00000002 and does nothing else. Its first words may
already wait in the receive buffer, as many of them as leave one word to come. -/
def Obligations.IllegalHeaderIsAnswered : Prop :=
  ∀ (s : State) (h : Word) (payload ws : List Word) (evs : List HostEvent),
    let op := h.toNat % 256
    let len := h.toNat / 256 % 256
    let rsv := h.toNat / 65536
    payload.length = len → ws ≠ [] → s.receivedWords ++ ws = h :: payload → s.inbound = ws.map .word ++ evs →
    (rsv ≠ 0 ∨ op = 0 ∨ 9 ≤ op ∨ ((op = 1 ∨ op = 6) ∧ len ≠ 1) ∨ (op ∈ [3, 4, 5, 7, 8] ∧ len ≠ 0)) →
    ∃ t, step s = .next t ∧ t.regs = s.regs ∧ t.outbound = s.outbound ++ [0x00000002#32] ∧ t.inbound = evs ∧
      t.receiving = none ∧ t.responses = s.responses ∧ t.resets = s.resets

/-- R93, R141: a whole LDST with a payload length other than 4 is answered 0x00000001, its payload discarded, nothing
written. Its first words may already wait in the receive buffer. -/
def Obligations.LdstWrongLengthIsAnswered : Prop :=
  ∀ (s : State) (h : Word) (payload ws : List Word) (evs : List HostEvent),
    payload.length = h.toNat / 256 % 256 → ws ≠ [] → s.receivedWords ++ ws = h :: payload →
    s.inbound = ws.map .word ++ evs →
    h.toNat / 65536 = 0 → h.toNat % 256 = 2 → h.toNat / 256 % 256 ≠ 4 →
    ∃ t, step s = .next t ∧ t.regs = s.regs ∧ t.outbound = s.outbound ++ [0x00000001#32] ∧ t.inbound = evs ∧
      t.receiving = none ∧ t.responses = s.responses ∧ t.resets = s.resets

/-- R60, R68: whatever its header, a whole command is taken off the stream with exactly its announced payload and gets
exactly one response, whose status word announces the result words that follow. Its first words may already wait in the
receive buffer. -/
def Obligations.WholeCommandGetsOneResponse : Prop :=
  ∀ (s : State) (h : Word) (payload ws : List Word) (evs : List HostEvent),
    payload.length = h.toNat / 256 % 256 → ws ≠ [] → s.receivedWords ++ ws = h :: payload →
    s.inbound = ws.map .word ++ evs →
    ∃ t status results, step s = .next t ∧ t.inbound = evs ∧ t.receiving = none ∧ t.responses = s.responses ∧
      t.resets = s.resets ∧ t.outbound = s.outbound ++ status :: results ∧
      status.toNat / 256 % 256 = results.length ∧ results.length ∈ [0, 1, 2, 4] ∧ status.toNat / 65536 = 0 ∧
      status.toNat % 256 ∈ [0, 1, 2]

/-- R67: a stream that ends inside a command leaves it unexecuted and unanswered, and S as it was; its words stay in the
receive buffer, with those that were there. That the model waits there is its own choice (notes/assumptions/3.md). -/
def Obligations.PartialCommandWaits : Prop :=
  ∀ (s : State) (h : Word) (payload ws : List Word),
    payload.length < h.toNat / 256 % 256 → s.receivedWords ++ ws = h :: payload → s.inbound = ws.map .word →
    step s = .next { s with receiving := some ⟨h, payload⟩, inbound := [] }

/-- Every step answers a next state: no command, no header word, no event and no register value stops the machine. On an
empty stream or inside a command this is the model's choice to wait (DESIGN CHOICE, notes/assumptions/3.md), and with
responses untaken its choice to accept commands all the same (DESIGN CHOICE, notes/assumptions/5.md). -/
def Obligations.EveryStepAnswersNext : Prop :=
  ∀ s : State, ∃ t, step s = .next t

/-- R46: a stream that begins with the words of a list of commands runs, one step a command, to the left fold of `exec` over
the list. -/
def Obligations.StreamRunIsLeftFoldOfExec : Prop :=
  ∀ (is : List Instr) (s : State) (evs : List HostEvent),
    (∀ i ∈ is, i.wellFormed = true) → s.receiving = none → s.inbound = (is.flatMap encode).map .word ++ evs →
    runSteps is.length s = runCommands is { s with inbound := evs }

/-- A step takes events from the front of the stream only, at least one if there is one. -/
def Obligations.StepConsumesEventsInOrder : Prop :=
  ∀ s t : State, step s = .next t →
    ∃ used, s.inbound = used ++ t.inbound ∧ (s.inbound ≠ [] → used ≠ [])

/-! ## Invariants -/

/-- R29, R60: every step keeps the receive buffer a command that still lacks a payload word, or empty. -/
def Obligations.StepKeepsReceivingInv : Prop :=
  ∀ s t : State, s.ReceivingInv → step s = .next t → t.ReceivingInv

/-- The reset state has the receive buffer empty. -/
def Obligations.ResetMeetsReceivingInv : Prop :=
  State.reset.ReceivingInv

/-- Response words already transferred are never taken back, not even by a reset. -/
def Obligations.TransferredResponsesStay : Prop :=
  ∀ s t : State, step s = .next t → ∃ more, t.responses = s.responses ++ more

/-- While `rst` stays low through the events a step uses, no response word is dropped, duplicated or reordered: what has been
or will be sent grows at its end only. -/
def Obligations.NoResponseWordIsLost : Prop :=
  ∀ (s t : State) (used : List HostEvent), step s = .next t → s.inbound = used ++ t.inbound → NoReset used →
    ∃ more, t.responses ++ t.outbound = s.responses ++ s.outbound ++ more

/-- From a state other than all-zero no list of commands without LDST 0, 0, 0, 0 reaches the all-zero state. -/
def Obligations.NonzeroStateStaysNonzero : Prop :=
  ∀ (is : List Instr) (s t : State), runCommands is s = .next t → s.regs ≠ ⟨0, 0, 0, 0⟩ →
    Instr.ldst [0, 0, 0, 0] ∉ is → t.regs ≠ ⟨0, 0, 0, 0⟩

/-! ## Whole-machine rules -/

/-- R31: the registers change in exactly three ways, and with nothing on the stream, however long, nothing changes; that the
machine then answers a step at all is the model's choice to wait (DESIGN CHOICE, notes/assumptions/3.md). -/
def Obligations.RegistersChangeInThreeWays : Prop :=
  (∀ (i : Instr) (s t : State), exec i s = .next t →
    t.regs = s.regs ∨
    (∃ v, i = .seed v ∧ t.regs = ⟨0x1F123BB5#32, 0x159A55E5#32, 0x075BCD15#32, v⟩) ∨
    (∃ a b c d, i = .ldst [a, b, c, d] ∧ t.regs = ⟨a, b, c, d⟩) ∨
    ((i = .next ∨ i = .rand ∨ ∃ high, i = .randint high) ∧
      t.regs = ⟨s.regs.s1, s.regs.s2, s.regs.s3, datapath s.regs.s0 s.regs.s3⟩)) ∧
  (∀ (c : Command) (e : DecodeError) (s t : State), decodeCommand c = .error e → runCommand c s = .next t →
    t.regs = s.regs) ∧
  (∀ s : State, s.inbound = [] → step s = .next s)

/-- Only the first whole command of the stream can change the registers in a step: if they change while `rst` stays low
through the events the step uses, the words received and still to come decode to an instruction whose `exec` made the
change, and the words after it are those the step leaves. -/
def Obligations.RegisterChangeComesFromFirstCommand : Prop :=
  ∀ (s t : State) (used : List HostEvent), s.ReceivingInv → step s = .next t → s.inbound = used ++ t.inbound →
    NoReset used → t.regs ≠ s.regs →
    ∃ i u, decode (s.receivedWords ++ wordsOf s.inbound) = .ok (i, wordsOf t.inbound) ∧ u.regs = s.regs ∧
      exec i u = .next t

/-- R33: the next registers and the response are a function of the registers and the command alone. -/
def Obligations.SameRegistersSameResponse : Prop :=
  ∀ (is : List Instr) (s s' t : State), s.regs = s'.regs → runCommands is s = .next t →
    ∃ t' r, runCommands is s' = .next t' ∧ t'.regs = t.regs ∧ t.outbound = s.outbound ++ r ∧
      t'.outbound = s'.outbound ++ r

/-- V8: after SEED with the same seed, two machines in any states answer every list of commands alike. -/
def Obligations.SameSeedSameSequence : Prop :=
  ∀ (v : Word) (is : List Instr) (s s' : State),
    ∃ t t' r, runCommands (.seed v :: is) s = .next t ∧ runCommands (.seed v :: is) s' = .next t' ∧
      t'.regs = t.regs ∧ t.outbound = s.outbound ++ r ∧ t'.outbound = s'.outbound ++ r

/-- R127: LDST X then STATE returns X; and LDST of the words STATE returned, at any later time, makes the commands that
follow answer as they did after the STATE. -/
def Obligations.SnapshotRestoreReplays : Prop :=
  (∀ (a b c d : Word) (s : State), ∃ t, runCommands [.ldst [a, b, c, d], .state] s = .next t ∧
    t.outbound = s.outbound ++ [0x00000000#32, 0x00000400#32, a, b, c, d] ∧ t.regs = ⟨a, b, c, d⟩) ∧
  (∀ (is : List Instr) (s u : State),
    ∃ t t' r, runCommands (.state :: is) s = .next t ∧
      runCommands (.ldst [s.regs.s0, s.regs.s1, s.regs.s2, s.regs.s3] :: is) u = .next t' ∧
      t'.regs = t.regs ∧
      t.outbound = s.outbound ++ [0x00000400#32, s.regs.s0, s.regs.s1, s.regs.s2, s.regs.s3] ++ r ∧
      t'.outbound = u.outbound ++ [0x00000000#32] ++ r)

/-- R172, R173: a host that sends SEED or a successful LDST before it reads learns nothing of what the registers held: from
any two states the answers are the same, and once the registers are written so are they. -/
def Obligations.BootOrderHidesRegisters : Prop :=
  ∀ (is : List Instr) (s s' : State), obeysBootOrder false is = true →
    ∃ t t' r, runCommands is s = .next t ∧ runCommands is s' = .next t' ∧
      t.outbound = s.outbound ++ r ∧ t'.outbound = s'.outbound ++ r ∧ (initialises is = true → t'.regs = t.regs)

/-- R107: k extractions of any mix leave the registers of k NEXT, and the next one is answered from the word NEXT would have
returned. -/
def Obligations.ExtractionsMakeOneStepEach : Prop :=
  ∀ (is : List Instr) (s : State), (∀ i ∈ is, i.extracts = true) →
    ∃ u n, runCommands is s = .next u ∧ u.regs = RegFile.advance^[is.length] s.regs ∧
      (∃ t, runCommands (List.replicate is.length .next) s = .next t ∧ t.regs = u.regs) ∧
      (∃ t, exec .next u = .next t ∧ t.outbound = u.outbound ++ [0x00000100#32, n]) ∧
      (∀ high, ∃ t r, exec (.randint high) u = .next t ∧ t.outbound = u.outbound ++ [0x00000100#32, r] ∧
        r.toNat = n.toNat % (high.toNat + 1)) ∧
      (∃ t, exec .rand u = .next t ∧
        t.outbound = u.outbound ++ [0x00000200#32, (f64OfRatio n).extractLsb' 0 32, (f64OfRatio n).extractLsb' 32 32])

/-- R25, R147: a command answered with an error leaves no trace but its answer; what follows runs as if it had not been
sent. -/
def Obligations.FailedCommandIsForgotten : Prop :=
  ∀ (c : Command) (s u : State), runCommand c s = .next u →
    (decodeCommand c = .error .reservedNotZero ∨ decodeCommand c = .error .unassignedOpcode ∨
      decodeCommand c = .error .wrongLength ∨ ∃ words, decodeCommand c = .ok (.ldst words) ∧ words.length ≠ 4) →
    ∀ is : List Instr, ∃ t t' e r, runCommands is s = .next t ∧ runCommands is u = .next t' ∧ t'.regs = t.regs ∧
      (e = 0x00000001#32 ∨ e = 0x00000002#32) ∧ t.outbound = s.outbound ++ r ∧
      t'.outbound = s.outbound ++ e :: r ∧ SamePorts t t'

/-- When the host accepts response words has no influence on the registers, on what is answered or on what is received (no
reset among the events the step uses). That commands are still received when no response word is accepted is the model's
choice: R73 lets the engine hold `cmd_ready` low meanwhile (DESIGN CHOICE, notes/assumptions/5.md). -/
def Obligations.AcceptTimingChangesNothing : Prop :=
  ∀ (s t : State) (used : List HostEvent), step s = .next t → s.inbound = used ++ t.inbound → NoReset used →
    ∃ t', step { s with inbound := s.inbound.filter (· ≠ .accept) } = .next t' ∧ t'.regs = t.regs ∧
      t'.receiving = t.receiving ∧ t'.inbound = t.inbound.filter (· ≠ .accept) ∧
      t'.responses ++ t'.outbound = t.responses ++ t.outbound

/-- R43: MIN, MAX, STATE, SEED and LDST are idempotent in the registers; NEXT, RANDINT and RAND are not. -/
def Obligations.OnlyExtractionsAreNotIdempotent : Prop :=
  (∀ (i : Instr) (s : State), i.extracts = false →
    ∃ t u, exec i s = .next t ∧ exec i t = .next u ∧ u.regs = t.regs) ∧
  (∀ (i : Instr), i.extracts = true → ∃ s t u, exec i s = .next t ∧ exec i t = .next u ∧ u.regs ≠ t.regs)

/-! ## The datapath -/

/-- R21: the 128-bit view X places S0 in X[31:0], S1 in X[63:32], S2 in X[95:64] and S3 in X[127:96]. -/
def Obligations.StateViewPlacesWords : Prop :=
  ∀ (S : RegFile) (i : Nat), i < 32 →
    S.view.getLsbD i = S.s0.getLsbD i ∧ S.view.getLsbD (32 + i) = S.s1.getLsbD i ∧
    S.view.getLsbD (64 + i) = S.s2.getLsbD i ∧ S.view.getLsbD (96 + i) = S.s3.getLsbD i

/-- R100: the datapath function, and its bit-by-bit form: a bit with an index outside 0..31 is 0. -/
def Obligations.NewWordBitByBit : Prop :=
  ∀ a d : Word,
    (datapath a d = (d ^^^ (d >>> 19)) ^^^ ((a ^^^ (a <<< 11)) ^^^ ((a ^^^ (a <<< 11)) >>> 8))) ∧
    ∀ i, i < 32 → (datapath a d).getLsbD i =
      (d.getLsbD i ^^ d.getLsbD (i + 19) ^^ a.getLsbD i ^^ (decide (11 ≤ i) && a.getLsbD (i - 11)) ^^
        (if i ≤ 23 then (a.getLsbD (i + 8) ^^ (decide (3 ≤ i) && a.getLsbD (i - 3))) else false))

/-- R104: the step is linear over exclusive-or, each of its three maps is a bijection, N is a bijective function of each
operand, and UNSTEP is the step's inverse on both sides. -/
def Obligations.StepIsLinearAndInvertible : Prop :=
  (∀ a a' d d' : Word, datapath (a ^^^ a') (d ^^^ d') = datapath a d ^^^ datapath a' d') ∧
  (∀ X Y : RegFile,
    RegFile.advance ⟨X.s0 ^^^ Y.s0, X.s1 ^^^ Y.s1, X.s2 ^^^ Y.s2, X.s3 ^^^ Y.s3⟩ =
      ⟨X.advance.s0 ^^^ Y.advance.s0, X.advance.s1 ^^^ Y.advance.s1, X.advance.s2 ^^^ Y.advance.s2,
        X.advance.s3 ^^^ Y.advance.s3⟩) ∧
  Function.Bijective (fun a : Word => a ^^^ (a <<< 11)) ∧
  Function.Bijective (fun t : Word => t ^^^ (t >>> 8)) ∧
  Function.Bijective (fun d : Word => d ^^^ (d >>> 19)) ∧
  (∀ d : Word, Function.Bijective fun a => datapath a d) ∧
  (∀ a : Word, Function.Bijective fun d => datapath a d) ∧
  (∀ S : RegFile, S.advance.unstep = S) ∧ (∀ S : RegFile, S.unstep.advance = S)

/-- R105: the all-zero state is a fixed point that no other state steps to; from it every extraction answers zero, RAND the
two words of +0.0 and the others one zero word; LDST accepts it and SEED never makes it. -/
def Obligations.ZeroStateIsAbsorbing : Prop :=
  datapath 0 0 = 0 ∧
  (∀ S : RegFile, S.advance = ⟨0, 0, 0, 0⟩ ↔ S = ⟨0, 0, 0, 0⟩) ∧
  (∀ (s : State) (i : Instr), s.regs = ⟨0, 0, 0, 0⟩ → i.extracts = true →
    ∃ t, exec i s = .next t ∧ t.regs = ⟨0, 0, 0, 0⟩ ∧
      t.outbound = s.outbound ++ if i = .rand then [0x00000200#32, 0, 0] else [0x00000100#32, 0]) ∧
  (∀ s : State, ∃ t, exec (.ldst [0, 0, 0, 0]) s = .next t ∧ t.regs = ⟨0, 0, 0, 0⟩ ∧
    t.outbound = s.outbound ++ [0x00000000#32]) ∧
  (∀ (s t : State) (v : Word), exec (.seed v) s = .next t → t.regs ≠ ⟨0, 0, 0, 0⟩)

/-- R103: what NEXT returns lies between what MIN and MAX return, and NEXT returns both of these, for any S0, S1, S2 with some
S3. -/
def Obligations.RawOutputReachesBothBounds : Prop :=
  (∀ s : State, ∃ t lo u n v hi,
    exec .min s = .next t ∧ t.outbound = s.outbound ++ [0x00000100#32, lo] ∧ lo = 0x00000000#32 ∧
    exec .next s = .next u ∧ u.outbound = s.outbound ++ [0x00000100#32, n] ∧ u.regs.s3 = n ∧
    exec .max s = .next v ∧ v.outbound = s.outbound ++ [0x00000100#32, hi] ∧ hi = 0xFFFFFFFF#32 ∧
    lo.toNat ≤ n.toNat ∧ n.toNat ≤ hi.toNat) ∧
  (∀ (s : State) (a b c : Word),
    (∃ d t, exec .next { s with regs := ⟨a, b, c, d⟩ } = .next t ∧
      t.outbound = s.outbound ++ [0x00000100#32, 0x00000000#32]) ∧
    (∃ d t, exec .next { s with regs := ⟨a, b, c, d⟩ } = .next t ∧
      t.outbound = s.outbound ++ [0x00000100#32, 0xFFFFFFFF#32]))

/-- R95: the first three outputs of two seeds differ by `delta XOR (delta SHR 19)` and its further images, so by exactly
`delta` when `delta < 2^19`; and the eight words the rule computes for seeds 42 and 43. -/
def Obligations.SeedContinuity : Prop :=
  (∀ (v v' : Word) (s s' : State),
    let delta := v ^^^ v'
    let d1 := delta ^^^ (delta >>> 19)
    let d2 := d1 ^^^ (d1 >>> 19)
    let d3 := d2 ^^^ (d2 >>> 19)
    ∃ t t' n1 n2 n3, runCommands [.seed v, .next, .next, .next] s = .next t ∧
      runCommands [.seed v', .next, .next, .next] s' = .next t' ∧
      t.outbound = s.outbound ++ [0x00000000#32, 0x00000100#32, n1, 0x00000100#32, n2, 0x00000100#32, n3] ∧
      t'.outbound = s'.outbound ++
        [0x00000000#32, 0x00000100#32, n1 ^^^ d1, 0x00000100#32, n2 ^^^ d2, 0x00000100#32, n3 ^^^ d3] ∧
      (delta.toNat < 2 ^ 19 → d1 = delta ∧ d2 = delta ∧ d3 = delta)) ∧
  (∀ s : State, ∃ t t', runCommands [.seed 42, .next, .next, .next, .next] s = .next t ∧
    runCommands [.seed 43, .next, .next, .next, .next] s = .next t' ∧
    t.outbound = s.outbound ++ [0x00000000#32, 0x00000100#32, 0x8E415C0C#32, 0x00000100#32, 0x49B3055C#32,
      0x00000100#32, 0x90595A1A#32, 0x00000100#32, 0x9058196B#32] ∧
    t'.outbound = s.outbound ++ [0x00000000#32, 0x00000100#32, 0x8E415C0D#32, 0x00000100#32, 0x49B3055D#32,
      0x00000100#32, 0x90595A1B#32, 0x00000100#32, 0x90581163#32])

/-! ## The derived outputs -/

/-- R122's corner cases: modulus 1, modulus 2^32, a bound not below N, and a modulus that is a power of two. -/
def Obligations.RandintCornerCases : Prop :=
  ∀ (s : State) (high : Word), let n := datapath s.regs.s0 s.regs.s3
    ∃ t r, exec (.randint high) s = .next t ∧ t.outbound = s.outbound ++ [0x00000100#32, r] ∧
      t.regs = ⟨s.regs.s1, s.regs.s2, s.regs.s3, n⟩ ∧
      (high = 0 → r = 0) ∧ (high = 0xFFFFFFFF#32 → r = n) ∧ (n.toNat ≤ high.toNat → r = n) ∧
      (∀ k, k ≤ 32 → high.toNat = 2 ^ k - 1 → ∀ j, r.getLsbD j = (decide (j < k) && n.getLsbD j))

/-- R125: the pattern's value is exactly `N / 2^32`; its sign, exponent and fraction in terms of the most significant 1 bit
of N; and its 21 low zeros. -/
def Obligations.Binary64PatternFields : Prop :=
  f64OfRatio 0 = 0x0000000000000000#64 ∧
  (∀ n : Word, binary64Value (f64OfRatio n) = some ((n.toNat : ℚ) / 2 ^ 32)) ∧
  ∀ (n : Word) (k : Nat), 2 ^ k ≤ n.toNat → n.toNat < 2 ^ (k + 1) →
    k ≤ 31 ∧ (f64OfRatio n).getLsbD 63 = false ∧ ((f64OfRatio n).extractLsb' 52 11).toNat = 991 + k ∧
    ((f64OfRatio n).extractLsb' 0 52).toNat = (n.toNat - 2 ^ k) * 2 ^ (52 - k) ∧
    (f64OfRatio n).toNat = (991 + k) * 2 ^ 52 + (n.toNat - 2 ^ k) * 2 ^ (52 - k) ∧
    (f64OfRatio n).extractLsb' 0 21 = 0

/-- R69, R70: what each command's response looks like; an error has no result words. -/
def Obligations.ResponseShapePerCommand : Prop :=
  ∀ (i : Instr) (s t : State), exec i s = .next t →
    ∃ status results, t.outbound = s.outbound ++ status :: results ∧
      match i with
      | .seed _ => status = 0x00000000#32 ∧ results = []
      | .ldst words => status = (if words.length = 4 then 0x00000000#32 else 0x00000001#32) ∧ results = []
      | .next => status = 0x00000100#32 ∧ results = [t.regs.s3]
      | .min => status = 0x00000100#32 ∧ results = [0x00000000#32]
      | .max => status = 0x00000100#32 ∧ results = [0xFFFFFFFF#32]
      | .randint high => status = 0x00000100#32 ∧ results.map BitVec.toNat = [t.regs.s3.toNat % (high.toNat + 1)]
      | .rand => status = 0x00000200#32 ∧
          results = [(f64OfRatio t.regs.s3).extractLsb' 0 32, (f64OfRatio t.regs.s3).extractLsb' 32 32]
      | .state => status = 0x00000400#32 ∧ results = [s.regs.s0, s.regs.s1, s.regs.s2, s.regs.s3]

/-! ## Reset -/

/-- R170: `rst` abandons the partly received command and the unsent response, the next word is a header, and the registers
hold the next `RESET_STATE`; that it is named by a free constant of the number of the reset alone, whatever the registers
held before, is the model's choice (DESIGN CHOICE, notes/assumptions/1.md). -/
def Obligations.ResetPinAbandonsEverything : Prop :=
  ∀ (s : State) (evs : List HostEvent), s.inbound = .reset :: evs →
    ∃ t, step s = .next t ∧ t.receiving = none ∧ t.outbound = [] ∧ t.responses = s.responses ∧ t.inbound = evs ∧
      t.resets = s.resets + 1 ∧
      t.regs = ⟨Config.resetState (s.resets + 1) 0, Config.resetState (s.resets + 1) 1,
        Config.resetState (s.resets + 1) 2, Config.resetState (s.resets + 1) 3⟩

/-- R177: a command whose last word had not been received when `rst` came is not executed and gets no response: the step is
the reset's alone, however many of the command's words came before, in earlier steps or this one. Response words the host
accepts on the way are sent and stay sent, the rest never come. `before` is what the host does before `rst`. That the
registers then hold a free constant of the number of the reset alone, whatever they held before, is the model's choice
(DESIGN CHOICE, notes/assumptions/1.md). -/
def Obligations.ResetInsideCommandDiscardsIt : Prop :=
  ∀ (s : State) (before evs : List HostEvent),
    NoReset before → s.inbound = before ++ .reset :: evs →
    (∀ (h : Word) (payload : List Word), s.receivedWords ++ wordsOf before = h :: payload →
      payload.length < h.toNat / 256 % 256) →
    step s = step { s with receiving := none, inbound := before.filter (· = .accept) ++ .reset :: evs } ∧
    ∃ t, step s = .next t ∧ t.receiving = none ∧ t.outbound = [] ∧ t.inbound = evs ∧ t.resets = s.resets + 1 ∧
      t.responses = s.responses ++ s.outbound.take (before.count .accept) ∧
      t.regs = ⟨Config.resetState (s.resets + 1) 0, Config.resetState (s.resets + 1) 1,
        Config.resetState (s.resets + 1) 2, Config.resetState (s.resets + 1) 3⟩

/-- The model's state after reset: nothing received, nothing on either stream; S0..S3 are the free `RESET_STATE` that the
model's counter of resets picks, whatever that counter starts at (notes/assumptions/1.md; the streams start empty,
notes/assumptions/2.md). -/
def Obligations.ResetStateFields : Prop :=
  State.reset.regs =
    ⟨Config.resetState State.reset.resets 0, Config.resetState State.reset.resets 1,
      Config.resetState State.reset.resets 2, Config.resetState State.reset.resets 3⟩ ∧
  State.reset.receiving = none ∧ State.reset.inbound = [] ∧ State.reset.outbound = [] ∧ State.reset.responses = []
end

