-- ==== Sys2Proof/Laws/Decode.lean ====
section
/-! SUPPORT. What the header fields of a built header are, and how a list of words is cut into commands. -/

namespace Sys2Proof

theorem getLsbD_mkHeader (op len : BitVec 8) (i : Nat) :
    (mkHeader op len).getLsbD i = if i < 8 then op.getLsbD i else len.getLsbD (i - 8) := by
  show (0#16 ++ len ++ op).getLsbD i = _
  rw [BitVec.getLsbD_append]
  split
  · rfl
  · rw [BitVec.getLsbD_append]
    split
    · rfl
    · next h => rw [BitVec.getLsbD_of_ge len _ (by omega)]; simp

@[simp] theorem headerOp_mkHeader (op len : BitVec 8) : headerOp (mkHeader op len) = op := by
  apply BitVec.eq_of_getLsbD_eq
  intro i hi
  simp [headerOp, getLsbD_mkHeader, hi]

@[simp] theorem headerLen_mkHeader (op len : BitVec 8) : headerLen (mkHeader op len) = len := by
  apply BitVec.eq_of_getLsbD_eq
  intro i hi
  simp [headerLen, getLsbD_mkHeader, hi]

@[simp] theorem headerRsv_mkHeader (op len : BitVec 8) : headerRsv (mkHeader op len) = 0 := by
  apply BitVec.eq_of_getLsbD_eq
  intro i hi
  simp only [headerRsv, BitVec.getLsbD_extractLsb', hi, getLsbD_mkHeader, if_neg (show ¬16 + i < 8 by omega)]
  rw [BitVec.getLsbD_of_ge len _ (by omega)]
  simp

/-- A header is made of its three fields: no bit is dropped. -/
theorem header_eq_fields (h : Word) : h = (headerRsv h ++ headerLen h ++ headerOp h : BitVec (16 + 8 + 8)) := by
  apply BitVec.eq_of_getLsbD_eq
  intro i hi
  rw [BitVec.getLsbD_append, BitVec.getLsbD_append]
  split
  · next h8 => simp [headerOp, h8]
  · split
    · next h8 h16 => simp [headerLen, h16, show 8 + (i - 8) = i by omega]
    · next h8 h16 => simp [headerRsv, show 16 + (i - 8 - 8) = i by omega]; omega

/-- A header with the reserved field 0 is the one `mkHeader` builds from its other fields. -/
theorem mkHeader_fields {h : Word} (hr : headerRsv h = 0) : mkHeader (headerOp h) (headerLen h) = h := by
  conv_rhs => rw [header_eq_fields h, hr]
  rfl

@[simp] theorem payloadLen_mkHeader (op len : BitVec 8) : payloadLen (mkHeader op len) = len.toNat := by
  simp [payloadLen]

/-- The header fields as the digits of the number a header is. -/
theorem headerOp_toNat (h : Word) : (headerOp h).toNat = h.toNat % 256 := by simp [headerOp]

theorem payloadLen_eq (h : Word) : payloadLen h = h.toNat / 256 % 256 := by
  simp [payloadLen, headerLen, Nat.shiftRight_eq_div_pow]

theorem headerRsv_toNat (h : Word) : (headerRsv h).toNat = h.toNat / 65536 := by
  have := h.isLt
  simp [headerRsv, Nat.shiftRight_eq_div_pow]
  omega

theorem headerRsv_eq_zero (h : Word) : headerRsv h = 0 ↔ h.toNat / 65536 = 0 := by
  rw [← headerRsv_toNat, ← BitVec.toNat_inj]
  rfl

theorem payloadLen_lt (h : Word) : payloadLen h < 256 := (headerLen h).isLt

/-- A well-formed instruction has at most 255 operand words. -/
theorem Instr.operands_length_lt {i : Instr} (h : i.wellFormed = true) : i.operands.length < 256 := by
  cases i <;> simp_all [Instr.operands, Instr.wellFormed]; omega

/-- The first command of a stream is the header and the words it announces. -/
theorem takeCommand_append {h : Word} {payload : List Word} (hl : payload.length = payloadLen h) (rest : List Word) :
    takeCommand (h :: (payload ++ rest)) = some (⟨h, payload⟩, rest) := by
  simp [takeCommand, ← hl]

/-- Decoding a stream that begins with a whole command is decoding that command. -/
theorem decode_words {c : Command} (hl : c.payload.length = payloadLen c.header) (rest : List Word) :
    decode (c.words ++ rest) = (decodeCommand c).map (fun i => (i, rest)) := by
  obtain ⟨h, payload⟩ := c
  rw [Command.words, List.cons_append, decode, takeCommand_append hl]
  cases hd : decodeCommand ⟨h, payload⟩ <;> simp [hd, Except.map]

/-- What `takeCommand` answers: a header with as many payload words as it announces, then the rest. -/
theorem takeCommand_eq_some {ws rest : List Word} {c : Command} (h : takeCommand ws = some (c, rest)) :
    ws = c.words ++ rest ∧ c.payload.length = payloadLen c.header := by
  cases ws with
  | nil => simp [takeCommand] at h
  | cons x xs =>
    simp only [takeCommand] at h
    split at h
    · simp at h
    · obtain ⟨rfl, rfl⟩ := by simpa using h
      simp [Command.words]
      omega

/-- The decoder reads exactly one whole command. -/
theorem decode_eq_ok {ws rest : List Word} {i : Instr} (h : decode ws = .ok (i, rest)) :
    ∃ c, ws = c.words ++ rest ∧ c.payload.length = payloadLen c.header ∧ decodeCommand c = .ok i := by
  unfold decode at h
  split at h
  · simp at h
  · next c r hc =>
    split at h
    · next j hj =>
      obtain ⟨rfl, rfl⟩ := by simpa using h
      exact ⟨c, (takeCommand_eq_some hc).1, (takeCommand_eq_some hc).2, hj⟩
    · simp at h

/-- What an accepted command is: the fields its instruction has, and nothing that the instruction does not carry. -/
theorem decodeCommand_eq_ok {c : Command} {i : Instr} (h : decodeCommand c = .ok i) :
    headerRsv c.header = 0 ∧ headerOp c.header = i.opcode ∧ i.operands = c.payload := by
  have commandOf_ok : ∀ op payload, commandOf op payload = .ok i → i.opcode.toNat = op ∧ i.operands = payload := by
    intro op payload hc
    unfold commandOf at hc
    repeat' split at hc
    all_goals simp at hc
    all_goals subst hc; simp_all [Instr.opcode, Instr.operands]
  simp only [decodeCommand] at h
  split at h
  · simp at h
  next hr =>
  replace hr : headerRsv c.header = 0 := by simpa using hr
  split at h
  · simp at h
  split at h
  · next h2 =>
    obtain rfl := by simpa using h
    exact ⟨hr, BitVec.eq_of_toNat_eq (by simpa [Instr.opcode] using h2), rfl⟩
  split at h
  · simp at h
  · obtain ⟨ho, hp⟩ := commandOf_ok _ _ h
    exact ⟨hr, BitVec.eq_of_toNat_eq ho.symm, hp⟩

/-! The words of each command (R62, R64). -/

@[simp] theorem encode_seed (v : Word) : encode (.seed v) = [0x00000101#32, v] := by
  show [mkHeader 0x01 (BitVec.ofNat 8 1), v] = _
  rw [show mkHeader 0x01 (BitVec.ofNat 8 1) = 0x00000101#32 by decide]
theorem encode_ldst (words : List Word) :
    encode (.ldst words) = mkHeader 0x02 (BitVec.ofNat 8 words.length) :: words := rfl
@[simp] theorem encode_next : encode .next = [0x00000003#32] := by decide
@[simp] theorem encode_min : encode .min = [0x00000004#32] := by decide
@[simp] theorem encode_max : encode .max = [0x00000005#32] := by decide
@[simp] theorem encode_randint (high : Word) : encode (.randint high) = [0x00000106#32, high] := by
  show [mkHeader 0x06 (BitVec.ofNat 8 1), high] = _
  rw [show mkHeader 0x06 (BitVec.ofNat 8 1) = 0x00000106#32 by decide]
@[simp] theorem encode_rand : encode .rand = [0x00000007#32] := by decide
@[simp] theorem encode_state : encode .state = [0x00000008#32] := by decide

end Sys2Proof
end

