-- ==== Sys2Proof/Laws/State.lean ====
section
/-! SUPPORT. One lemma per field and update of the state: what each shared operation of Machine/Ops.lean does to each field,
so that no later proof unfolds a record update. -/

namespace Sys2Proof.Machine

/-! ## Writing the registers (R10) and the step (R101) -/

@[simp] theorem State.setRegs_regs (S : RegFile) (s : State) : (s.setRegs S).regs = S := rfl
@[simp] theorem State.setRegs_receiving (S : RegFile) (s : State) : (s.setRegs S).receiving = s.receiving := rfl
@[simp] theorem State.setRegs_inbound (S : RegFile) (s : State) : (s.setRegs S).inbound = s.inbound := rfl
@[simp] theorem State.setRegs_outbound (S : RegFile) (s : State) : (s.setRegs S).outbound = s.outbound := rfl
@[simp] theorem State.setRegs_responses (S : RegFile) (s : State) : (s.setRegs S).responses = s.responses := rfl
@[simp] theorem State.setRegs_resets (S : RegFile) (s : State) : (s.setRegs S).resets = s.resets := rfl

@[simp] theorem State.stepRegs_regs (s : State) : s.stepRegs.regs = s.regs.advance := rfl
@[simp] theorem State.stepRegs_receiving (s : State) : s.stepRegs.receiving = s.receiving := rfl
@[simp] theorem State.stepRegs_inbound (s : State) : s.stepRegs.inbound = s.inbound := rfl
@[simp] theorem State.stepRegs_outbound (s : State) : s.stepRegs.outbound = s.outbound := rfl
@[simp] theorem State.stepRegs_responses (s : State) : s.stepRegs.responses = s.responses := rfl
@[simp] theorem State.stepRegs_resets (s : State) : s.stepRegs.resets = s.resets := rfl

@[simp] theorem RegFile.advance_s0 (S : RegFile) : S.advance.s0 = S.s1 := rfl
@[simp] theorem RegFile.advance_s1 (S : RegFile) : S.advance.s1 = S.s2 := rfl
@[simp] theorem RegFile.advance_s2 (S : RegFile) : S.advance.s2 = S.s3 := rfl
@[simp] theorem RegFile.advance_s3 (S : RegFile) : S.advance.s3 = S.newWord := rfl

/-! ## The response (R68) -/

@[simp] theorem State.respond_regs (st : Status) (r : List Word) (s : State) : (s.respond st r).regs = s.regs := rfl
@[simp] theorem State.respond_receiving (st : Status) (r : List Word) (s : State) :
    (s.respond st r).receiving = s.receiving := rfl
@[simp] theorem State.respond_inbound (st : Status) (r : List Word) (s : State) :
    (s.respond st r).inbound = s.inbound := rfl
@[simp] theorem State.respond_outbound (st : Status) (r : List Word) (s : State) :
    (s.respond st r).outbound = s.outbound ++ statusWord st r.length :: r := rfl
@[simp] theorem State.respond_responses (st : Status) (r : List Word) (s : State) :
    (s.respond st r).responses = s.responses := rfl
@[simp] theorem State.respond_resets (st : Status) (r : List Word) (s : State) : (s.respond st r).resets = s.resets := rfl

/-! The status words that occur (R70). -/

@[simp] theorem statusWord_ok_zero : statusWord .ok 0 = 0x00000000#32 := by decide
@[simp] theorem statusWord_ok_one : statusWord .ok 1 = 0x00000100#32 := by decide
@[simp] theorem statusWord_ok_two : statusWord .ok 2 = 0x00000200#32 := by decide
@[simp] theorem statusWord_ok_four : statusWord .ok 4 = 0x00000400#32 := by decide
@[simp] theorem statusWord_invalidState : statusWord .invalidState 0 = 0x00000001#32 := by decide
@[simp] theorem statusWord_illegalCommand : statusWord .illegalCommand 0 = 0x00000002#32 := by decide

/-! ## Operands and results (R122) -/

/-- R122: the remainder fits a word, so cutting it to 32 bits loses nothing. -/
@[simp] theorem boundedDraw_toNat (n high : Word) : (boundedDraw n high).toNat = n.toNat % (high.toNat + 1) := by
  have := Nat.mod_lt n.toNat (show high.toNat + 1 > 0 by omega)
  have := high.isLt
  rw [boundedDraw, BitVec.toNat_ofNat, Nat.mod_eq_of_lt]
  omega

/-! ## The host accepting a response word (R73) -/

@[simp] theorem State.acceptWord_regs (s : State) : s.acceptWord.regs = s.regs := by
  unfold State.acceptWord; split <;> rfl
@[simp] theorem State.acceptWord_receiving (s : State) : s.acceptWord.receiving = s.receiving := by
  unfold State.acceptWord; split <;> rfl
@[simp] theorem State.acceptWord_inbound (s : State) : s.acceptWord.inbound = s.inbound := by
  unfold State.acceptWord; split <;> rfl
@[simp] theorem State.acceptWord_resets (s : State) : s.acceptWord.resets = s.resets := by
  unfold State.acceptWord; split <;> rfl

/-- Accepting moves a word from one side to the other: none is dropped or duplicated. -/
@[simp] theorem State.acceptWord_stream (s : State) :
    s.acceptWord.responses ++ s.acceptWord.outbound = s.responses ++ s.outbound := by
  unfold State.acceptWord
  split
  · rfl
  · next h => simp [h]

/-! ## Reset (R170) -/

@[simp] theorem State.resetPin_regs (s : State) : s.resetPin.regs = RegFile.afterReset (s.resets + 1) := rfl
@[simp] theorem State.resetPin_receiving (s : State) : s.resetPin.receiving = none := rfl
@[simp] theorem State.resetPin_inbound (s : State) : s.resetPin.inbound = s.inbound := rfl
@[simp] theorem State.resetPin_outbound (s : State) : s.resetPin.outbound = [] := rfl
@[simp] theorem State.resetPin_responses (s : State) : s.resetPin.responses = s.responses := rfl
@[simp] theorem State.resetPin_resets (s : State) : s.resetPin.resets = s.resets + 1 := rfl

end Sys2Proof.Machine
end

