-- ==== Sys2Proof/Laws/Exec.lean ====
section
/-! SUPPORT. Everything a meaning can do, said once: the registers it leaves, the response it sends, and that it touches
nothing else. Later proofs cite `exec_eq` and its consequences instead of unfolding `exec`. -/

namespace Sys2Proof.Machine

/-- R31: the registers after a command. -/
def regsAfter (i : Instr) (S : RegFile) : RegFile :=
  match i with
  | .seed v => expandSeed v
  | .ldst words => (RegFile.ofWords words).getD S
  | .next | .randint _ | .rand => S.advance
  | .min | .max | .state => S

/-- R70: the response to a command. -/
def responseTo (i : Instr) (S : RegFile) : List Word :=
  match i with
  | .seed _ => [statusWord .ok 0]
  | .ldst words => [statusWord (if (RegFile.ofWords words).isSome then .ok else .invalidState) 0]
  | .next => [statusWord .ok 1, S.newWord]
  | .min => [statusWord .ok 1, minValue]
  | .max => [statusWord .ok 1, maxValue]
  | .randint high => [statusWord .ok 1, boundedDraw S.newWord high]
  | .rand => statusWord .ok 2 :: halves (f64OfRatio S.newWord)
  | .state => statusWord .ok 4 :: S.words

/-- Every command answers a next state: the new registers, one response, nothing else. -/
theorem exec_eq (i : Instr) (s : State) :
    exec i s = .next { s with regs := regsAfter i s.regs, outbound := s.outbound ++ responseTo i s.regs } := by
  cases i with
  | ldst words =>
    simp only [exec, execLdst, regsAfter, responseTo]
    cases h : RegFile.ofWords words <;> simp [raise, State.respond, State.setRegs, Exc.status]
  | _ => rfl

/-- The next state of a command, for a proof that has one in hand. -/
theorem exec_next {i : Instr} {s t : State} (h : exec i s = .next t) :
    t = { s with regs := regsAfter i s.regs, outbound := s.outbound ++ responseTo i s.regs } := by
  rw [exec_eq] at h
  exact (by simpa using h : _ = t).symm

/-- A command leaves the ports alone but for its response. -/
theorem exec_samePorts {i : Instr} {s t : State} (h : exec i s = .next t) : SamePorts s t := by
  rw [exec_next h]; exact ⟨rfl, rfl, rfl, rfl⟩

/-- A command runs the same whatever the host does next. -/
theorem exec_inbound (i : Instr) (s : State) (evs : List HostEvent) {t : State} (h : exec i s = .next t) :
    exec i { s with inbound := evs } = .next { t with inbound := evs } := by
  rw [exec_eq, exec_next h]

@[simp] theorem runCommands_nil (s : State) : runCommands [] s = .next s := rfl

theorem runCommands_cons (i : Instr) (is : List Instr) (s : State) :
    runCommands (i :: is) s =
      runCommands is { s with regs := regsAfter i s.regs, outbound := s.outbound ++ responseTo i s.regs } := by
  rw [runCommands, exec_eq]

/-- The length check of R93 in the form `regsAfter` and `responseTo` use it. -/
theorem RegFile.ofWords_isSome (words : List Word) : (RegFile.ofWords words).isSome = decide (words.length = 4) := by
  unfold RegFile.ofWords
  split
  · rfl
  · next h =>
    match words, h with
    | [], _ | [_], _ | [_, _], _ | [_, _, _], _ => rfl
    | [a, b, c, d], h => exact absurd rfl (h a b c d)
    | _ :: _ :: _ :: _ :: _ :: _, _ => simp

/-- R41: reading the registers out and loading the words back gives the same registers. -/
@[simp] theorem RegFile.ofWords_words (S : RegFile) : RegFile.ofWords S.words = some S := rfl

end Sys2Proof.Machine
end

