-- ==== Sys2Proof/Laws/PerInstr.lean ====
section
/-! SUPPORT. The family `Framing`: facts about each instruction as syntax. -/

namespace Sys2Proof.Laws.Framing

/-- R60, R61: the header of a well-formed instruction announces exactly its operands, carries its opcode and has the
reserved field 0. -/
def Statement (i : Instr) : Prop :=
  i.wellFormed = true →
    payloadLen (encodeCommand i).header = (encodeCommand i).payload.length ∧
      headerOp (encodeCommand i).header = i.opcode ∧ headerRsv (encodeCommand i).header = 0

theorem of_length {i : Instr} (h : i.operands.length < 256) :
    payloadLen (encodeCommand i).header = (encodeCommand i).payload.length ∧
      headerOp (encodeCommand i).header = i.opcode ∧ headerRsv (encodeCommand i).header = 0 := by
  simp [encodeCommand, Nat.mod_eq_of_lt h]

theorem seed (v : Word) : Statement (.seed v) := fun h => of_length (Instr.operands_length_lt h)
theorem ldst (words : List Word) : Statement (.ldst words) := fun h => of_length (Instr.operands_length_lt h)
theorem next : Statement .next := fun h => of_length (Instr.operands_length_lt h)
theorem min : Statement .min := fun h => of_length (Instr.operands_length_lt h)
theorem max : Statement .max := fun h => of_length (Instr.operands_length_lt h)
theorem randint (high : Word) : Statement (.randint high) := fun h => of_length (Instr.operands_length_lt h)
theorem rand : Statement .rand := fun h => of_length (Instr.operands_length_lt h)
theorem state : Statement .state := fun h => of_length (Instr.operands_length_lt h)

end Sys2Proof.Laws.Framing
end

