-- ==== Sys2Proof/Laws/Step.lean ====
section
/-! SUPPORT. Receiving a command event by event, what a whole step can be, and its frame. -/

namespace Sys2Proof.Machine

@[simp] theorem fetch_nil (s : State) : fetch [] s = .waiting { s with inbound := [] } := rfl

@[simp] theorem fetch_accept (evs : List HostEvent) (s : State) : fetch (.accept :: evs) s = fetch evs s.acceptWord := rfl

@[simp] theorem fetch_reset (evs : List HostEvent) (s : State) :
    fetch (.reset :: evs) s = .wasReset { s.resetPin with inbound := evs } := rfl

/-- The word that completes a command. -/
theorem fetch_word_complete {w : Word} {s : State} (h : (Command.receive w s.receiving).complete = true)
    (evs : List HostEvent) :
    fetch (.word w :: evs) s =
      .command (Command.receive w s.receiving) { s with receiving := none, inbound := evs } := by
  simp [fetch, h]

/-- A word that does not complete one. -/
theorem fetch_word_more {w : Word} {s : State} (h : (Command.receive w s.receiving).complete = false)
    (evs : List HostEvent) :
    fetch (.word w :: evs) s = fetch evs { s with receiving := some (Command.receive w s.receiving) } := by
  simp [fetch, h]

/-- Payload words that complete the command under way. -/
theorem fetch_payload (ws : List Word) (evs : List HostEvent) (s : State) (c : Command) (hc : s.receiving = some c)
    (hw : ws ≠ []) (hl : c.payload.length + ws.length = payloadLen c.header) :
    fetch (ws.map .word ++ evs) s =
      .command ⟨c.header, c.payload ++ ws⟩ { s with receiving := none, inbound := evs } := by
  induction ws generalizing s c with
  | nil => exact absurd rfl hw
  | cons w ws ih =>
    rw [List.map_cons, List.cons_append]
    cases ws with
    | nil =>
      rw [fetch_word_complete]
      · simp [hc, Command.receive]
      · simp at hl; simp [hc, Command.receive, Command.complete]; omega
    | cons v vs =>
      rw [fetch_word_more, ih _ ⟨c.header, c.payload ++ [w]⟩]
      · simp
      · simp [hc, Command.receive]
      · simp
      · simp at hl ⊢; omega
      · simp at hl; simp [hc, Command.receive, Command.complete]; omega

/-- The words of a whole command, received between commands. -/
theorem fetch_command (c : Command) (hl : c.payload.length = payloadLen c.header) (evs : List HostEvent) (s : State)
    (hs : s.receiving = none) :
    fetch (c.words.map .word ++ evs) s = .command c { s with receiving := none, inbound := evs } := by
  obtain ⟨h, payload⟩ := c
  simp only at hl
  rw [Command.words, List.map_cons, List.cons_append]
  cases payload with
  | nil =>
    rw [fetch_word_complete]
    · simp [hs, Command.receive]
    · simp [hs, Command.receive, Command.complete, ← hl]
  | cons w ws =>
    rw [fetch_word_more, fetch_payload (w :: ws) evs _ ⟨h, []⟩]
    · simp
    · simp [hs, Command.receive]
    · simp
    · simpa using hl
    · simp [hs, Command.receive, Command.complete, ← hl]

/-- Words that do not complete a command wait in the receive buffer. -/
theorem fetch_partial (ws : List Word) (evs : List HostEvent) (s : State) (c : Command) (hc : s.receiving = some c)
    (hl : c.payload.length + ws.length < payloadLen c.header) :
    fetch (ws.map .word ++ evs) s = fetch evs { s with receiving := some ⟨c.header, c.payload ++ ws⟩ } := by
  induction ws generalizing s c with
  | nil => simp [← hc]
  | cons w ws ih =>
    rw [List.map_cons, List.cons_append, fetch_word_more, ih _ ⟨c.header, c.payload ++ [w]⟩]
    · simp
    · simp [hc, Command.receive]
    · simp at hl ⊢; omega
    · simp at hl; simp [hc, Command.receive, Command.complete]; omega

/-- A whole command of any kind: executed or rejected, and answered. -/
theorem step_command (c : Command) (hl : c.payload.length = payloadLen c.header) (evs : List HostEvent) (s : State)
    (hs : s.receiving = none) (hi : s.inbound = c.words.map .word ++ evs) :
    step s = runCommand c { s with inbound := evs } := by
  rw [step, hi, fetch_command c hl evs s hs]
  simp [hs]

/-- A whole command whose first words may have come in earlier steps. -/
theorem step_received {c : Command} (hl : c.payload.length = payloadLen c.header) {ws : List Word} (hw : ws ≠ [])
    {s : State} (hr : s.receivedWords ++ ws = c.words) {evs : List HostEvent} (hi : s.inbound = ws.map .word ++ evs) :
    step s = runCommand c { s with receiving := none, inbound := evs } := by
  unfold State.receivedWords at hr
  cases hs : s.receiving with
  | none =>
    obtain rfl : ws = c.words := by simpa [hs] using hr
    rw [step_command c hl evs s hs hi, ← hs]
  | some p =>
    obtain ⟨h, payload⟩ := c
    obtain ⟨rfl, rfl⟩ := by simpa [hs, Command.words] using hr
    rw [step, hi, fetch_payload ws evs s p hs hw (by simpa using hl)]

/-- R66, R146: what a rejected command does. -/
theorem runCommand_error {c : Command} {e : DecodeError} (h : decodeCommand c = .error e) (s : State) :
    runCommand c s = .next (s.respond .illegalCommand []) := by
  simp [runCommand, h, raise, Exc.status]

theorem runCommand_ok {c : Command} {i : Instr} (h : decodeCommand c = .ok i) (s : State) :
    runCommand c s = exec i s := by
  simp [runCommand, h]

/-- A whole command always answers a next state that differs in the registers and one appended response. -/
theorem runCommand_next (c : Command) (s : State) :
    ∃ S r, runCommand c s = .next { s with regs := S, outbound := s.outbound ++ r } := by
  cases h : decodeCommand c with
  | ok i => exact ⟨_, _, by rw [runCommand_ok h, exec_eq]⟩
  | error e => exact ⟨s.regs, [statusWord .illegalCommand 0], by rw [runCommand_error h]; rfl⟩

/-! ## What receiving and a step can be -/

/-- Accepting adds at most one word to the response stream. -/
theorem State.acceptWord_grows (s : State) : ∃ more, s.acceptWord.responses = s.responses ++ more := by
  unfold State.acceptWord
  split
  · exact ⟨[], by simp⟩
  · exact ⟨_, rfl⟩

/-- What receiving leaves alone on the way to a command, a reset or the end of the stream. -/
structure Received (s t : State) : Prop where
  regs   : t.regs = s.regs
  resets : t.resets = s.resets
  stream : t.responses ++ t.outbound = s.responses ++ s.outbound
  grows  : ∃ more, t.responses = s.responses ++ more

theorem Received.refl (s : State) : Received s s := ⟨rfl, rfl, rfl, [], by simp⟩

theorem Received.trans {s t u : State} (h : Received s t) (h' : Received t u) : Received s u := by
  obtain ⟨a, ha⟩ := h.grows
  obtain ⟨b, hb⟩ := h'.grows
  exact ⟨h'.regs.trans h.regs, h'.resets.trans h.resets, h'.stream.trans h.stream, a ++ b, by simp [ha, hb]⟩

theorem Received.accept (s : State) : Received s s.acceptWord :=
  ⟨by simp, by simp, by simp, s.acceptWord_grows⟩

theorem Received.receiving (s : State) (o : Option Command) (evs : List HostEvent) :
    Received s { s with receiving := o, inbound := evs } := ⟨rfl, rfl, rfl, [], by simp⟩

/-- Receiving that ends in a command: everything it can have done. -/
theorem fetch_eq_command {evs : List HostEvent} {s t : State} {c : Command} (h : fetch evs s = .command c t) :
    Received s t ∧ t.receiving = none ∧ c.complete = true ∧ ∃ used, evs = used ++ t.inbound ∧ used ≠ [] := by
  fun_induction fetch evs s with
  | case1 => simp at h
  | case2 evs s ih =>
    obtain ⟨hr, hn, hc, used, hu, _⟩ := ih h
    exact ⟨(Received.accept s).trans hr, hn, hc, .accept :: used, by simp [hu], by simp⟩
  | case3 => simp at h
  | case4 w evs s hcpl =>
    obtain ⟨rfl, rfl⟩ := by simpa using h
    exact ⟨Received.receiving .., rfl, hcpl, [.word w], rfl, by simp⟩
  | case5 w evs s hcpl ih =>
    obtain ⟨hr, hn, hc, used, hu, _⟩ := ih h
    exact ⟨(Received.receiving s _ s.inbound).trans hr, hn, hc, .word w :: used, by simp [hu], by simp⟩

/-- Receiving that ends in a reset: what came before it, then `resetPin`. -/
theorem fetch_eq_wasReset {evs : List HostEvent} {s t : State} (h : fetch evs s = .wasReset t) :
    ∃ u, Received s u ∧ t = { u.resetPin with inbound := t.inbound } ∧ ∃ used, evs = used ++ .reset :: t.inbound := by
  fun_induction fetch evs s with
  | case1 => simp at h
  | case2 evs s ih =>
    obtain ⟨u, hr, ht, used, hu⟩ := ih h
    exact ⟨u, (Received.accept s).trans hr, ht, .accept :: used, by simp [hu]⟩
  | case3 evs s =>
    obtain rfl := by simpa using h
    exact ⟨s, Received.refl s, rfl, [], rfl⟩
  | case4 => simp at h
  | case5 w evs s hcpl ih =>
    obtain ⟨u, hr, ht, used, hu⟩ := ih h
    exact ⟨u, (Received.receiving s _ s.inbound).trans hr, ht, .word w :: used, by simp [hu]⟩

/-- Receiving that runs out of events. -/
theorem fetch_eq_waiting {evs : List HostEvent} {s t : State} (h : fetch evs s = .waiting t) :
    Received s t ∧ t.inbound = [] ∧ (s.ReceivingInv → t.ReceivingInv) := by
  fun_induction fetch evs s with
  | case1 s =>
    obtain rfl := by simpa using h
    exact ⟨Received.receiving s s.receiving [], rfl, id⟩
  | case2 evs s ih =>
    obtain ⟨hr, hi, hinv⟩ := ih h
    exact ⟨(Received.accept s).trans hr, hi, fun hs => hinv (by intro c hc; exact hs c (by simpa using hc))⟩
  | case3 => simp at h
  | case4 => simp at h
  | case5 w evs s hcpl ih =>
    obtain ⟨hr, hi, hinv⟩ := ih h
    refine ⟨(Received.receiving s _ s.inbound).trans hr, hi, fun _ => hinv ?_⟩
    intro c hc
    obtain rfl := by simpa using hc
    simpa [Command.complete] using hcpl

theorem runCommand_eq_next {c : Command} {s t : State} (h : runCommand c s = .next t) :
    ∃ S r, t = { s with regs := S, outbound := s.outbound ++ r } := by
  obtain ⟨S, r, h'⟩ := runCommand_next c s
  exact ⟨S, r, by rw [h'] at h; simpa using h.symm⟩

/-- The three things a step can be. -/
theorem step_cases {s t : State} (h : step s = .next t) :
    (∃ c u, fetch s.inbound s = .command c u ∧ runCommand c u = .next t) ∨ fetch s.inbound s = .wasReset t ∨
      fetch s.inbound s = .waiting t := by
  unfold step at h
  split at h
  · exact .inl ⟨_, _, ‹_›, h⟩
  · next hf => exact .inr (.inl (by rw [hf]; simpa using h))
  · next hf => exact .inr (.inr (by rw [hf]; simpa using h))

theorem fetch_not_wasReset {evs : List HostEvent} {s t : State} (h : HostEvent.reset ∉ evs) :
    fetch evs s ≠ .wasReset t := by
  intro hf
  obtain ⟨u, _, _, used, hu⟩ := fetch_eq_wasReset hf
  exact h (by simp [hu])

/-- A step whose own events hold no `rst` is no reset. -/
theorem step_cases_of_noReset {s t : State} {used : List HostEvent} (h : step s = .next t)
    (hu : s.inbound = used ++ t.inbound) (hn : NoReset used) :
    (∃ c u, fetch s.inbound s = .command c u ∧ runCommand c u = .next t) ∨ fetch s.inbound s = .waiting t := by
  rcases step_cases h with hc | hf | hf
  · exact .inl hc
  · obtain ⟨-, -, -, used', hu'⟩ := fetch_eq_wasReset hf
    obtain rfl : used = used' ++ [.reset] := List.append_cancel_right (by rw [← hu, hu']; simp)
    exact absurd (by simp) hn
  · exact .inr hf

/-- Events that hold no `rst` and do not complete a command: the words wait, and as many response words are sent as the
host accepts. -/
theorem fetch_incomplete (before evs : List HostEvent) (s : State) (hn : NoReset before)
    (hw : ∀ h payload, s.receivedWords ++ wordsOf before = h :: payload → payload.length < payloadLen h) :
    ∃ o, fetch (before ++ evs) s = fetch evs
      { s with
        receiving := o, outbound := s.outbound.drop (before.count .accept),
        responses := s.responses ++ s.outbound.take (before.count .accept) } := by
  induction before generalizing s with
  | nil => exact ⟨s.receiving, by simp⟩
  | cons e before ih =>
    obtain ⟨he, hb⟩ : HostEvent.reset ≠ e ∧ NoReset before := by simpa [NoReset] using hn
    cases e with
    | reset => exact absurd rfl he
    | accept =>
      obtain ⟨o, ho⟩ := ih s.acceptWord hb (by simpa [State.receivedWords, wordsOf] using hw)
      refine ⟨o, ?_⟩
      rw [List.cons_append, fetch_accept, ho]
      cases hq : s.outbound <;> simp [State.acceptWord, hq]
    | word w =>
      have hwords : (Command.receive w s.receiving).words = s.receivedWords ++ [w] := by
        unfold State.receivedWords
        cases s.receiving <;> simp [Command.receive, Command.words]
      have hw' : ∀ h payload, (Command.receive w s.receiving).words ++ wordsOf before = h :: payload →
          payload.length < payloadLen h := by
        rw [hwords]
        simpa [wordsOf] using hw
      have hlt := hw' _ _ rfl
      obtain ⟨o, ho⟩ := ih { s with receiving := some (Command.receive w s.receiving) } hb hw'
      refine ⟨o, ?_⟩
      rw [List.cons_append, fetch_word_more, ho]
      · simp
      · simp [Command.complete] at hlt ⊢
        omega

end Sys2Proof.Machine
end

