-- ==== Sys2Proof/Machine/Assembler.lean ====
section
/-! DEFINITION. The assembler notation for command streams (30_encoding.md rules R71 and R72): text to words. The machine
never sees it. What R71 leaves open of the text (blanks, empty lines, case of hexadecimal digits) is a DESIGN CHOICE,
notes/assumptions/16.md. -/

namespace Sys2Proof.Machine

/-- R71, R72: a mnemonic or one of its other names, with its operands in the order written. LDST takes any 0 to 255. -/
def commandNamed (mnemonic : String) (operands : List Word) : Option Instr :=
  match mnemonic, operands with
  | "SEED", [v] => some (.seed v)
  | "NEW", [v] => some (.seed v)
  | "LDST", ws => if ws.length ≤ 255 then some (.ldst ws) else none
  | "NEWSTATE", [w0, w1, w2, w3] => some (.ldst [w0, w1, w2, w3])
  | "NEXT", [] => some .next
  | "DRAW", [] => some .next
  | "CALL", [] => some .next
  | "MIN", [] => some .min
  | "MAX", [] => some .max
  | "RANDINT", [high] => some (.randint high)
  | "RAND", [] => some .rand
  | "STATE", [] => some .state
  | _, _ => none

/-- The digits of R71's numerals in the order of their values; a decimal numeral uses the first ten. -/
def numeralDigits : List Char := "0123456789ABCDEF".toList

/-- The value of a digit: its place among the digits, a small letter standing for the capital. -/
def digitValue (c : Char) : Option Nat := numeralDigits.idxOf? c.toUpper

/-- The number a list of digits spells after `acc`. -/
def readDigits (base : Nat) : List Char → Nat → Option Nat
  | [], acc => some acc
  | c :: cs, acc =>
    match digitValue c with
    | some d => if d < base then readDigits base cs (acc * base + d) else none
    | none => none

/-- R71: a decimal or `0x` hexadecimal numeral in [0, 2^32 - 1]. -/
def readNumeral (text : List Char) : Option Word :=
  let value :=
    match text with
    | [] => none
    | '0' :: 'x' :: d :: ds => readDigits 16 (d :: ds) 0
    | d :: ds => readDigits 10 (d :: ds) 0
  match value with
  | some n => if n < 2 ^ 32 then some (BitVec.ofNat 32 n) else none
  | none => none

/-- A blank between the parts of a line. -/
def isBlank (c : Char) : Bool := c = ' ' || c = '\t' || c = '\r'

/-- The text without the blanks around it. -/
def trimBlanks (text : List Char) : List Char := ((text.dropWhile isBlank).reverse.dropWhile isBlank).reverse

/-- The pieces of a text between separators. -/
def pieces (sep : Char) : List Char → List (List Char)
  | [] => [[]]
  | c :: cs =>
    match pieces sep cs with
    | [] => [[c]]
    | p :: ps => if c = sep then [] :: p :: ps else (c :: p) :: ps

/-- R71: one line, a command, a `.word` line (the words as they stand), or nothing; `;` starts a comment. R71 gives
`.word v` only: that several numerals are taken and that `.word` with none is no line is the model's choice (DESIGN CHOICE,
notes/assumptions/16.md). -/
def assembleLine (line : List Char) : Option (List Word) :=
  let body := trimBlanks (line.takeWhile (· ≠ ';'))
  let mnemonic := body.takeWhile (fun c => !isBlank c)
  let operandText := trimBlanks (body.dropWhile (fun c => !isBlank c))
  if body.isEmpty then some []
  else
    match if operandText.isEmpty then some [] else (pieces ',' operandText).mapM (fun p => readNumeral (trimBlanks p)) with
    | none => none
    | some operands =>
      if mnemonic = ['.', 'w', 'o', 'r', 'd'] then (if operands.isEmpty then none else some operands)
      else (commandNamed (String.ofList mnemonic) operands).map encode

/-- R71: a command stream, one command a line. -/
def assemble (text : String) : Option (List Word) :=
  ((pieces '\n' text.toList).mapM assembleLine).map List.flatten

end Sys2Proof.Machine
end

