-- ==== Sys2Proof/Tests/Slice0.lean ====
section
/-! SUPPORT. Tests. The expected results are the spec's: the document's literals V1 to V7 and the tables of
95_test_vectors.md, and words written out by hand from 30_encoding.md. Then, for every obligation with hypotheses, a
concrete witness that meets them. -/

open Sys2Proof Sys2Proof.Machine

namespace Sys2Proof.Tests

/-- A small state: four words, the host's events, nothing else. -/
def st (a b c d : Word) (evs : List HostEvent := []) : State :=
  { regs := ⟨a, b, c, d⟩, receiving := none, inbound := evs, outbound := [], responses := [], resets := 0 }

/-- The state after `SEED 42` (95_test_vectors.md P1). -/
def s42 : State := st 0x1F123BB5 0x159A55E5 0x075BCD15 0x0000002A

/-- The registers and the queued response of an outcome. -/
def shown (o : Host.Outcome State Fault Refusal) : Option (List Word × List Word) :=
  (nextOf o).map fun t => (t.regs.words, t.outbound)

/-! ## Well-formedness -/

/-- An ill-formed term: a header cannot announce 256 payload words (R60). -/
theorem test_wellFormed_refuses_long_ldst : Instr.wellFormed (.ldst (List.replicate 256 0)) = false := by decide +kernel
theorem test_wellFormed_accepts_longest_ldst : Instr.wellFormed (.ldst (List.replicate 255 0)) = true := by decide +kernel

/-! ## Decoding: words written out from R61 and R64 (rsv, len, op) -/

theorem test_decode_seed : decode [0b0000000000000000_00000001_00000001#32, 42] = .ok (.seed 42, []) := by decide
theorem test_decode_ldst :
    decode [0b0000000000000000_00000100_00000010#32, 1, 2, 3, 4] = .ok (.ldst [1, 2, 3, 4], []) := by decide
theorem test_decode_ldst_short : decode [0b0000000000000000_00000000_00000010#32, 7] = .ok (.ldst [], [7]) := by decide
theorem test_decode_next : decode [0b0000000000000000_00000000_00000011#32] = .ok (.next, []) := by decide
theorem test_decode_min : decode [0b0000000000000000_00000000_00000100#32] = .ok (.min, []) := by decide
theorem test_decode_max : decode [0b0000000000000000_00000000_00000101#32] = .ok (.max, []) := by decide
theorem test_decode_randint : decode [0b0000000000000000_00000001_00000110#32, 99] = .ok (.randint 99, []) := by decide
theorem test_decode_rand : decode [0b0000000000000000_00000000_00000111#32] = .ok (.rand, []) := by decide
theorem test_decode_state : decode [0b0000000000000000_00000000_00001000#32] = .ok (.state, []) := by decide

/-- 95_test_vectors.md 2.7: one header for each of the tests of R65, and the two words R66 names. -/
theorem test_decode_rejects :
    ([[0x00010003], [0x00010302, 7, 7, 7], [0x80000003], [0x00000000], [0x00000009], [0x000000FF], [0x00000001],
      [0x00000201, 1, 2], [0x00000103, 0xDEADBEEF], [0x00000006], [0x00000408, 1, 2, 3, 4], [0x00000101]]).map decode =
    [.error .reservedNotZero, .error .reservedNotZero, .error .reservedNotZero, .error .unassignedOpcode,
      .error .unassignedOpcode, .error .unassignedOpcode, .error .wrongLength, .error .wrongLength,
      .error .wrongLength, .error .wrongLength, .error .wrongLength, .error .incomplete] := by decide

/-- R64: the rows' masks and match values do not overlap. -/
theorem test_opcodeTable_rows_disjoint :
    opcodeTable.Pairwise (fun r q => r.value &&& q.mask ≠ q.value ∧ q.value &&& r.mask ≠ r.value) := by decide

theorem test_opcodeRow_ldst : (opcodeRow 0x00000302).map (·.mnemonic) = some "LDST" := by decide

/-- The host's numbering: word k of an instruction is bits 32k+31 .. 32k. -/
theorem test_decodeTableWord_seed : decodeTableWord 64 0x0000002A00000101 = some (.seed 42) := by decide
/-- Bits above `nbits` are 0: the LDST header alone, its four operand words zero. -/
theorem test_decodeTableWord_ldst : decodeTableWord 32 0xFFFFFFFF00000402 = some (.ldst [0, 0, 0, 0]) := by decide
theorem test_decodeTableWord_illegal : decodeTableWord 32 0x00000009 = none := by decide

/-! ## The datapath and the derived values -/

/-- 95_test_vectors.md 2.1, the rows that tell shift directions, truncation and logical from arithmetic shifts apart. -/
theorem test_datapath_rows :
    datapath 0x00000001 0x00000000 = 0x00000809 ∧ datapath 0x80000000 0x00000000 = 0x80800000 ∧
    datapath 0x00000000 0x80000000 = 0x80001000 ∧ datapath 0x00200000 0x00000000 = 0x00202000 ∧
    datapath 0x00100000 0x00000000 = 0x80901000 ∧ datapath 0x00000000 0x00080000 = 0x00080001 ∧
    datapath 0xFFFFFFFF 0xFFFFFFFF = 0xFFFFE7F8 ∧ datapath 0x12345678 0x9ABCDEF0 = 0x2A8BDC49 := by decide

/-- 2.2: the inverse step maps the state after back to the state before. -/
theorem test_unstep : RegFile.unstep ⟨0x00000002, 0x00000003, 0x00000004, 0x0000080D⟩ = ⟨1, 2, 3, 4⟩ := by decide

/-- R21. -/
theorem test_view : RegFile.view ⟨1, 2, 3, 4⟩ = 0x00000004000000030000000200000001 := by decide

/-- 2.5, N = 8E415C0C. -/
theorem test_boundedDraw_rows :
    boundedDraw 0x8E415C0C 0 = 0 ∧ boundedDraw 0x8E415C0C 99 = 76 ∧ boundedDraw 0x8E415C0C 100 = 98 ∧
    boundedDraw 0x8E415C0C 0x7FFFFFFF = 0x0E415C0C ∧ boundedDraw 0x8E415C0C 0x8E415C0B = 0 ∧
    boundedDraw 0x8E415C0C 0xFFFFFFFF = 0x8E415C0C := by decide

/-- 2.6. -/
theorem test_f64OfRatio_rows :
    f64OfRatio 0x00000000 = 0x0000000000000000 ∧ f64OfRatio 0x00000001 = 0x3DF0000000000000 ∧
    f64OfRatio 0x00000003 = 0x3E08000000000000 ∧ f64OfRatio 0x7FFFFFFF = 0x3FDFFFFFFFC00000 ∧
    f64OfRatio 0x80000000 = 0x3FE0000000000000 ∧ f64OfRatio 0xFFFFFFFF = 0x3FEFFFFFFFE00000 := by decide

/-! ## The commands -/

/-- P1, first command. -/
theorem test_seed :
    shown (exec (.seed 42) (st 9 9 9 9)) = some ([0x1F123BB5, 0x159A55E5, 0x075BCD15, 0x0000002A], [0]) := by decide
/-- 2.4. -/
theorem test_ldst : shown (exec (.ldst [1, 2, 3, 4]) (st 9 9 9 9)) = some ([1, 2, 3, 4], [0]) := by decide
/-- 2.4. -/
theorem test_ldst_five_words : shown (exec (.ldst [5, 6, 7, 8, 9]) (st 1 2 3 4)) = some ([1, 2, 3, 4], [1]) := by decide
/-- V1, and the state of P1. -/
theorem test_next_V1 :
    shown (exec .next s42) = some ([0x159A55E5, 0x075BCD15, 0x0000002A, 2386648076], [0x00000100, 2386648076]) := by
  decide
/-- V2. -/
theorem test_next_V2 : shown (exec .next (st 0x159A55E5 0x075BCD15 0x0000002A 2386648076)) =
    some ([0x075BCD15, 0x0000002A, 2386648076, 1236469084], [0x00000100, 1236469084]) := by decide
/-- V7. -/
theorem test_min : shown (exec .min (st 1 2 3 4)) = some ([1, 2, 3, 4], [0x00000100, 0]) := by decide
/-- V7. -/
theorem test_max : shown (exec .max (st 1 2 3 4)) = some ([1, 2, 3, 4], [0x00000100, 0xFFFFFFFF]) := by decide
/-- V5. -/
theorem test_randint_V5 : shown (exec (.randint 99) s42) =
    some ([0x159A55E5, 0x075BCD15, 0x0000002A, 0x8E415C0C], [0x00000100, 76]) := by decide
/-- V6. -/
theorem test_randint_V6 :
    (shown (exec (.randint 99) (st 0x159A55E5 0x075BCD15 0x0000002A 2386648076))).map (·.2) =
      some [0x00000100, 84] := by decide
/-- P6. -/
theorem test_rand : shown (exec .rand s42) =
    some ([0x159A55E5, 0x075BCD15, 0x0000002A, 0x8E415C0C], [0x00000200, 0x81800000, 0x3FE1C82B]) := by decide
/-- P7. -/
theorem test_rand_zero : shown (exec .rand (st 0 0 0 0)) = some ([0, 0, 0, 0], [0x00000200, 0, 0]) := by decide
/-- R126. -/
theorem test_state : shown (exec .state s42) =
    some ([0x1F123BB5, 0x159A55E5, 0x075BCD15, 0x0000002A],
      [0x00000400, 0x1F123BB5, 0x159A55E5, 0x075BCD15, 0x0000002A]) := by decide

/-! ## A step -/

/-- P4: a NEXT with `len` 1 is rejected, its payload word discarded, the next word stays on the stream. -/
theorem test_step_illegal :
    (nextOf (step (st 1 2 3 4 [.word 0x00000103, .word 0xDEADBEEF, .word 8]))).map
      (fun t => (t.regs.words, t.outbound, t.inbound)) = some ([1, 2, 3, 4], [2], [.word 8]) := by decide
/-- R67: the words of a command that is not complete wait. -/
theorem test_step_partial :
    (nextOf (step (st 1 2 3 4 [.word 0x00000402, .word 5]))).map (fun t => (t.regs.words, t.outbound, t.receiving)) =
      some ([1, 2, 3, 4], [], some ⟨0x00000402, [5]⟩) := by decide
/-- R73: an accepted response word moves to the response stream. -/
theorem test_step_accept :
    (nextOf (step { st 1 2 3 4 [.accept, .word 4] with outbound := [0x00000100, 7] })).map
      (fun t => (t.outbound, t.responses)) = some ([7, 0x00000100, 0], [0x00000100]) := by decide
/-- R170, R177: what was sent stays, the rest and the partial command are gone. -/
theorem test_step_reset :
    (nextOf (step { st 1 2 3 4 [.word 0x00000101, .accept, .reset, .word 3] with outbound := [0x00000100, 7] })).map
      (fun t => (t.receiving, t.outbound, t.responses, t.inbound)) =
      some (none, [], [0x00000100], [.word 3]) := by decide
/-- Every row of the opcode table runs as the first instruction after reset: R173, even one that reads the registers. -/
theorem test_first_after_reset :
    [0x00000101, 0x00000002, 0x00000402, 0x00000003, 0x00000004, 0x00000005, 0x00000106, 0x00000007, 0x00000008].all
      (fun w => (nextOf (step (State.reset.withFetchWord 32 w))).isSome) = true := by decide
theorem test_max_after_reset :
    (nextOf (step (State.reset.withFetchWord 32 0x00000005))).map (·.outbound) = some [0x00000100, 0xFFFFFFFF] := by
  decide

/-! ## The assembler (R71, R72) -/

/-- P4's first lines. -/
theorem test_assemble_commands :
    assemble "LDST 1, 2, 3, 4          ; OK\nSTATE\n.word 0x00000103, 0xDEADBEEF\nLDST 9, 9, 9" =
      some [0x402, 1, 2, 3, 4, 8, 0x103, 0xDEADBEEF, 0x302, 9, 9, 9] := by decide
theorem test_assemble_other_names :
    assemble "NEW 42\nDRAW\nCALL\nNEWSTATE 1,2,3,4" = some [0x101, 42, 3, 3, 0x402, 1, 2, 3, 4] := by decide
/-- The model's choice (notes/assumptions/16.md): `.word` without a numeral is no statement. -/
theorem test_assemble_bare_word : assemble ".word" = none := by decide
/-- A numeral outside [0, 2^32 - 1] is no operand. -/
theorem test_assemble_out_of_range : assemble "SEED 4294967296" = none := by decide

/-! ## Witnesses: concrete values that meet the hypotheses of the obligation named -/

theorem witness_LdstReplacesStateOrRejects :
    ([] : List Word).length ≠ 4 ∧ ([9, 9, 9] : List Word).length ≠ 4 ∧ ([5, 6, 7, 8, 9] : List Word).length ≠ 4 := by
  decide

theorem witness_DecodeOfEncodeIsIdentity : Instr.wellFormed (.ldst (List.replicate 255 0xFFFFFFFF)) = true := by
  decide +kernel

theorem witness_DecodedWordsAreTheEncoding : decode [0x00000101, 42, 7] = .ok (.seed 42, [7]) := by decide

/-- The conditions of `DecodeFollowsTestOrder` on a header and the number of its payload words. -/
def fields (h : Word) : Nat × Nat × Nat := (h.toNat % 256, h.toNat / 256 % 256, h.toNat / 65536)

/-- A header for each clause, at the edges of its range: (op, len, rsv). -/
theorem witness_DecodeFollowsTestOrder :
    fields 0x00010003 = (3, 0, 1) ∧ fields 0xFFFF0302 = (2, 3, 65535) ∧
    fields 0x00000000 = (0, 0, 0) ∧ fields 0x00000009 = (9, 0, 0) ∧ fields 0x000000FF = (255, 0, 0) ∧
    fields 0x00000002 = (2, 0, 0) ∧ fields 0x0000FF02 = (2, 255, 0) ∧ fields 0x00000402 = (2, 4, 0) ∧
    fields 0x00000001 = (1, 0, 0) ∧ fields 0x00000201 = (1, 2, 0) ∧ fields 0x00000006 = (6, 0, 0) ∧
    fields 0x00000206 = (6, 2, 0) ∧ fields 0x00000103 = (3, 1, 0) ∧ fields 0x0000FF08 = (8, 255, 0) ∧
    fields 0x00000101 = (1, 1, 0) ∧ fields 0x00000106 = (6, 1, 0) ∧ fields 0x00000003 = (3, 0, 0) ∧
    fields 0x00000004 = (4, 0, 0) ∧ fields 0x00000005 = (5, 0, 0) ∧ fields 0x00000007 = (7, 0, 0) ∧
    fields 0x00000008 = (8, 0, 0) := by decide

theorem witness_HeaderSelectsTableRow :
    (⟨0x00000302, [9, 9, 9]⟩ : Command).payload.length = payloadLen 0x00000302 ∧
    (0x00000302 : Word) &&& 0xFFFF00FF = 0x00000002 := by decide

/-- Both shapes of the receive buffer: empty, and holding the header and one payload word of an LDST. -/
theorem witness_StepRunsDecodedCommand :
    (([0x00000106, 99] : List Word) ≠ [] ∧
      (st 1 2 3 4 [.word 0x00000106, .word 99, .word 8]).inbound =
        ([0x00000106, 99] : List Word).map .word ++ [.word 8] ∧
      decode ((st 1 2 3 4 [.word 0x00000106, .word 99, .word 8]).receivedWords ++ [0x00000106, 99]) =
        .ok (.randint 99, [])) ∧
    decode ({ st 1 2 3 4 [.word 6, .word 7, .word 8] with receiving := some ⟨0x00000402, [5]⟩ }.receivedWords ++
      [6, 7, 8]) = .ok (.ldst [5, 6, 7, 8], []) := by decide

/-- Whether these words, the received ones followed by at least one more, are a whole command, and the rest of them stand
at the front of the stream: the hypotheses the step statements about one whole command share. -/
def sends (s : State) (h : Word) (payload ws : List Word) (evs : List HostEvent) : Bool :=
  payload.length = (fields h).2.1 && ws ≠ [] && s.receivedWords ++ ws = h :: payload && s.inbound = ws.map .word ++ evs

/-- A small state whose receive buffer holds a header and some payload words. -/
def half (h : Word) (payload : List Word) (evs : List HostEvent) : State :=
  { st 1 2 3 4 evs with receiving := some ⟨h, payload⟩ }

/-- One header for each cause: (op, len, rsv) of each, at the edges of its range; the first also half received. -/
theorem witness_IllegalHeaderIsAnswered :
    sends (st 1 2 3 4 [.word 0x00010302, .word 7, .word 7, .word 7, .word 8]) 0x00010302 [7, 7, 7]
      [0x00010302, 7, 7, 7] [.word 8] = true ∧
    sends (half 0x00010302 [7] [.word 7, .word 7, .word 8]) 0x00010302 [7, 7, 7] [7, 7] [.word 8] = true ∧
    fields 0x00010302 = (2, 3, 1) ∧
    sends (st 1 2 3 4 [.word 0]) 0x00000000 [] [0] [] = true ∧ fields 0x00000000 = (0, 0, 0) ∧
    sends (st 1 2 3 4 [.word 9]) 0x00000009 [] [9] [] = true ∧ fields 0x00000009 = (9, 0, 0) ∧
    sends (half 0x00000206 [1] [.word 2]) 0x00000206 [1, 2] [2] [] = true ∧ fields 0x00000206 = (6, 2, 0) ∧
    sends (half 0x00000103 [] [.word 7]) 0x00000103 [7] [7] [] = true ∧ fields 0x00000103 = (3, 1, 0) := by decide

theorem witness_LdstWrongLengthIsAnswered :
    sends (half 0x00000302 [9, 9] [.word 9]) 0x00000302 [9, 9, 9] [9] [] = true ∧ fields 0x00000302 = (2, 3, 0) ∧
    sends (st 1 2 3 4 [.word 2, .word 8]) 0x00000002 [] [2] [.word 8] = true ∧ fields 0x00000002 = (2, 0, 0) := by decide

theorem witness_WholeCommandGetsOneResponse :
    sends (st 1 2 3 4 [.word 0x00000206, .word 1, .word 2, .word 8]) 0x00000206 [1, 2] [0x00000206, 1, 2] [.word 8] = true ∧
    sends (half 0x00000206 [1] [.word 2, .word 8]) 0x00000206 [1, 2] [2] [.word 8] = true := by decide

/-- The header first received in this step, and received in an earlier one. -/
theorem witness_PartialCommandWaits :
    ([5, 6, 7] : List Word).length < (fields 0x00000402).2.1 ∧
    (st 1 2 3 4 [.word 0x00000402, .word 5, .word 6, .word 7]).receivedWords ++ [0x00000402, 5, 6, 7] =
      [0x00000402, 5, 6, 7] ∧
    (st 1 2 3 4 [.word 0x00000402, .word 5, .word 6, .word 7]).inbound =
      ([0x00000402, 5, 6, 7] : List Word).map .word ∧
    (half 0x00000402 [5] [.word 6, .word 7]).receivedWords ++ [6, 7] = [0x00000402, 5, 6, 7] ∧
    (half 0x00000402 [5] [.word 6, .word 7]).inbound = ([6, 7] : List Word).map .word := by decide

theorem witness_StreamRunIsLeftFoldOfExec :
    let s := st 1 2 3 4 [.word 0x00000101, .word 42, .word 3, .word 0x00000102, .word 1, .word 8]
    (∀ i ∈ [Instr.seed 42, .next, .ldst [1]], i.wellFormed = true) ∧ s.receiving = none ∧
      s.inbound = ([Instr.seed 42, .next, .ldst [1]].flatMap encode).map .word ++ [.word 8] := by decide

/-- For StepConsumesEventsInOrder, StepKeepsReceivingInv, TransferredResponsesStay, NoResponseWordIsLost and
AcceptTimingChangesNothing: a step that ends a half-received command, `rst` low until later. -/
theorem witness_step_next :
    let used := [HostEvent.accept, .word 7]
    let s := { half 0x00000201 [6] (used ++ [.reset, .word 3]) with outbound := [0x00000100, 5] }
    let t := { st 1 2 3 4 [.reset, .word 3] with outbound := [5, 2], responses := [0x00000100] }
    s.ReceivingInv ∧ step s = .next t ∧ s.inbound = used ++ t.inbound ∧ NoReset used := by
  refine ⟨?_, rfl, rfl, by decide⟩
  intro c hc
  obtain rfl := by simpa [half] using hc
  decide

theorem witness_NonzeroStateStaysNonzero :
    runCommands [.next] (st 1 2 3 4) =
      .next { st 2 3 4 0x80D with outbound := [0x00000100, 0x80D] } ∧
    (st 1 2 3 4).regs ≠ ⟨0, 0, 0, 0⟩ ∧ Instr.ldst [0, 0, 0, 0] ∉ [Instr.next] := by
  exact ⟨rfl, by decide, by decide⟩

/-- A step that changes the registers, `rst` low until later. -/
theorem witness_RegisterChangeComesFromFirstCommand :
    let s := st 1 2 3 4 [.word 3, .reset]
    let t := { st 2 3 4 0x80D [.reset] with outbound := [0x00000100, 0x80D] }
    s.ReceivingInv ∧ step s = .next t ∧ s.inbound = [.word 3] ++ t.inbound ∧ NoReset [.word 3] ∧ t.regs ≠ s.regs := by
  exact ⟨by intro c hc; simp [st] at hc, rfl, rfl, by decide, by decide⟩

theorem witness_RegistersChangeInThreeWays :
    exec .next (st 1 2 3 4) = .next { st 2 3 4 0x80D with outbound := [0x00000100, 0x80D] } ∧
    decodeCommand ⟨0x00000009, []⟩ = .error .unassignedOpcode ∧
    runCommand ⟨0x00000009, []⟩ (st 1 2 3 4) = .next { st 1 2 3 4 with outbound := [2] } ∧
    (st 1 2 3 4).inbound = [] := by
  exact ⟨rfl, by decide, rfl, rfl⟩

theorem witness_SameRegistersSameResponse :
    (st 1 2 3 4).regs = { st 1 2 3 4 [.accept] with outbound := [7] }.regs ∧
    runCommands [.min] (st 1 2 3 4) = .next { st 1 2 3 4 with outbound := [0x00000100, 0] } := by
  exact ⟨rfl, rfl⟩

theorem witness_BootOrderHidesRegisters :
    obeysBootOrder false [.min, .ldst [9, 9, 9], .seed 42, .next, .state] = true ∧
    initialises [.min, .ldst [9, 9, 9], .seed 42, .next, .state] = true ∧
    obeysBootOrder false [.ldst [9, 9, 9], .next] = false := by decide

theorem witness_ExtractionsMakeOneStepEach : ∀ i ∈ [Instr.next, .randint 9, .rand], i.extracts = true := by decide

/-- One command for each way to fail. -/
theorem witness_FailedCommandIsForgotten :
    decodeCommand ⟨0x00010003, []⟩ = .error .reservedNotZero ∧ decodeCommand ⟨0, []⟩ = .error .unassignedOpcode ∧
    decodeCommand ⟨0x00000103, [7]⟩ = .error .wrongLength ∧
    decodeCommand ⟨0x00000302, [9, 9, 9]⟩ = .ok (.ldst [9, 9, 9]) ∧
    runCommand ⟨0x00000302, [9, 9, 9]⟩ (st 1 2 3 4) = .next { st 1 2 3 4 with outbound := [1] } := by
  exact ⟨by decide, by decide, by decide, by decide, rfl⟩

theorem witness_OnlyExtractionsAreNotIdempotent :
    (Instr.ldst [1]).extracts = false ∧ (Instr.randint 0).extracts = true := by decide

theorem witness_ZeroStateIsAbsorbing :
    (st 0 0 0 0).regs = ⟨0, 0, 0, 0⟩ ∧ (Instr.rand).extracts = true ∧
    exec (.seed 0) (st 0 0 0 0) =
      .next { st 0x1F123BB5 0x159A55E5 0x075BCD15 0 with outbound := [0] } := by
  exact ⟨rfl, rfl, rfl⟩

/-- Both bounds reached from S0 = 0: F(0, d) = d XOR (d SHR 19), and 0xFFFFE000 XOR 0x00001FFF is 0xFFFFFFFF. -/
theorem test_next_reaches_both_bounds :
    shown (exec .next (st 0 2 3 0)) = some ([2, 3, 0, 0], [0x00000100, 0]) ∧
    shown (exec .next (st 0 2 3 0xFFFFE000)) = some ([2, 3, 0xFFFFE000, 0xFFFFFFFF], [0x00000100, 0xFFFFFFFF]) := by
  decide

theorem witness_SeedContinuity :
    ((42 : Word) ^^^ 43).toNat < 2 ^ 19 ∧ ((0 : Word) ^^^ 0x0007FFFF).toNat < 2 ^ 19 := by decide

/-- A bound for each clause: N = 0x80D. -/
theorem witness_RandintCornerCases :
    datapath (st 1 2 3 4).regs.s0 (st 1 2 3 4).regs.s3 = 0x80D ∧ (0x80D : Word).toNat ≤ (0x80D : Word).toNat ∧
    (0 : Word).toNat = 2 ^ 0 - 1 ∧ (0xFFFF : Word).toNat = 2 ^ 16 - 1 ∧ (0xFFFFFFFF : Word).toNat = 2 ^ 32 - 1 := by
  decide

theorem witness_Binary64PatternFields :
    (2 ^ 0 ≤ (1 : Word).toNat ∧ (1 : Word).toNat < 2 ^ (0 + 1)) ∧
    (2 ^ 31 ≤ (0xFFFFFFFF : Word).toNat ∧ (0xFFFFFFFF : Word).toNat < 2 ^ (31 + 1)) := by decide

theorem witness_ResponseShapePerCommand :
    exec (.ldst [9]) (st 1 2 3 4) = .next { st 1 2 3 4 with outbound := [1] } := by rfl

theorem witness_ResetPinAbandonsEverything :
    (st 1 2 3 4 [.reset, .word 3]).inbound = .reset :: [.word 3] := by decide

/-- A command of which two words came in an earlier step and one comes before `rst`, with a response word taken. -/
theorem witness_ResetInsideCommandDiscardsIt :
    let before := [HostEvent.accept, .word 6]
    let s := { half 0x00000402 [5] (before ++ .reset :: [.word 3]) with outbound := [0x00000100, 7] }
    NoReset before ∧ s.inbound = before ++ .reset :: [.word 3] ∧
      s.receivedWords ++ wordsOf before = [0x00000402, 5, 6] ∧ ([5, 6] : List Word).length < (fields 0x00000402).2.1 := by
  decide

end Sys2Proof.Tests
end

/-! PROOFS. The scope of the machine (00_scope.md): what a step answers and what it runs. -/

namespace Sys2Proof.Machine

/-- Settles O19: whatever receiving comes to, the step answers. A whole command always answers (R146), and the other two
ways end in a state outright. -/
theorem everyStepAnswersNext : Obligations.EveryStepAnswersNext := by
  intro s
  unfold step
  cases fetch s.inbound s with
  | command c u =>
    obtain ⟨S, r, hrun⟩ := runCommand_next c u
    exact ⟨_, hrun⟩
  | wasReset u => exact ⟨u, rfl⟩
  | waiting u => exact ⟨u, rfl⟩

/-- Settles O14: words that decode to one instruction are one whole command, which the step receives and runs. -/
theorem stepRunsDecodedCommand : Obligations.StepRunsDecodedCommand := by
  intro s ws evs i hws hin hdec
  obtain ⟨c, hwords, hlen, hc⟩ := decode_eq_ok hdec
  have hwhole : s.receivedWords ++ ws = c.words := by rw [hwords, List.append_nil]
  rw [step_received hlen hws hwhole hin, runCommand_ok hc]

end Sys2Proof.Machine

/-! PROOFS. The state (10_state.md): what each field can become, and what the registers alone decide. -/

namespace Sys2Proof.Machine

/-! ## The receive buffer (R29, R60) -/

/-- An empty receive buffer meets the invariant. -/
theorem State.receivingInv_of_none {s : State} (h : s.receiving = none) : s.ReceivingInv := by
  intro c hc
  rw [h] at hc
  cases hc

@[simp] theorem State.acceptWord_receivingInv (s : State) : s.acceptWord.ReceivingInv ↔ s.ReceivingInv := by
  simp [State.ReceivingInv]

@[simp] theorem State.acceptWord_receivedWords (s : State) : s.acceptWord.receivedWords = s.receivedWords := by
  simp [State.receivedWords]

/-- Receiving a word adds it after the words received before. -/
theorem Command.words_receive (w : Word) (s : State) :
    (Command.receive w s.receiving).words = s.receivedWords ++ [w] := by
  unfold State.receivedWords
  cases s.receiving <;> rfl

/-- From a buffer that lacks a payload word, one word more is at most the announced payload. -/
theorem State.ReceivingInv.receive_length_le {s : State} (h : s.ReceivingInv) (w : Word) :
    (Command.receive w s.receiving).payload.length ≤ payloadLen (Command.receive w s.receiving).header := by
  cases hs : s.receiving with
  | none => exact Nat.zero_le _
  | some c =>
    have hlt : c.payload.length < payloadLen c.header := h c hs
    simpa [Command.receive] using hlt

/-- A command that is not complete lacks a payload word. -/
theorem State.receivingInv_of_incomplete {c : Command} (h : ¬ c.complete = true) (s : State) :
    { s with receiving := some c }.ReceivingInv := by
  intro d hd
  obtain rfl : c = d := by simpa using hd
  simpa [Command.complete] using h

/-- Under the invariant, the command receiving ends in is the first whole one of the words received and to come. -/
theorem fetch_command_words {evs : List HostEvent} {s u : State} {c : Command} (hs : s.ReceivingInv)
    (h : fetch evs s = .command c u) :
    s.receivedWords ++ wordsOf evs = c.words ++ wordsOf u.inbound ∧ c.payload.length = payloadLen c.header := by
  fun_induction fetch evs s with
  | case1 => simp at h
  | case2 evs s ih => simpa [wordsOf] using ih (by simpa using hs) h
  | case3 => simp at h
  | case4 w evs s hcpl =>
    obtain ⟨rfl, rfl⟩ := by simpa using h
    exact ⟨by simp [Command.words_receive, wordsOf],
      Nat.le_antisymm (hs.receive_length_le w) (of_decide_eq_true hcpl)⟩
  | case5 w evs s hcpl ih =>
    obtain ⟨hwords, hlen⟩ := ih (State.receivingInv_of_incomplete hcpl s) h
    refine ⟨?_, hlen⟩
    rw [← hwords, wordsOf, List.append_cons, ← Command.words_receive]
    rfl

/-- Settles O22: a command and a reset leave the buffer empty (a command's own execution does not write it), and a wait
keeps the invariant word by word. -/
theorem stepKeepsReceivingInv : Obligations.StepKeepsReceivingInv := by
  intro s t hs hstep
  rcases step_cases hstep with ⟨c, u, hfetch, hrun⟩ | hfetch | hfetch
  · obtain ⟨-, hnone, -⟩ := fetch_eq_command hfetch
    obtain ⟨S, r, rfl⟩ := runCommand_eq_next hrun
    exact State.receivingInv_of_none hnone
  · obtain ⟨u, -, ht, -⟩ := fetch_eq_wasReset hfetch
    exact State.receivingInv_of_none (by rw [ht]; rfl)
  · obtain ⟨-, -, hkeeps⟩ := fetch_eq_waiting hfetch
    exact hkeeps hs

/-! ## The registers (R21, R31) -/

/-- R92, R93: the words that make a state are its own four. -/
theorem RegFile.ofWords_eq_some {words : List Word} {S : RegFile} (h : RegFile.ofWords words = some S) :
    words = S.words := by
  unfold RegFile.ofWords at h
  split at h
  · obtain rfl := by simpa using h
    rfl
  · cases h

/-- Settles O27: by the command, the registers it leaves being `regsAfter`. -/
theorem registersChangeInThreeWays : Obligations.RegistersChangeInThreeWays := by
  refine ⟨?exec, ?rejected, ?waiting⟩
  case exec =>
    intro i s t h
    rw [exec_next h]
    cases i with
    | seed v => exact .inr (.inl ⟨v, rfl, rfl⟩)
    | ldst words =>
      cases hw : RegFile.ofWords words with
      | none => exact .inl (by simp [regsAfter, hw])
      | some S =>
        obtain rfl := RegFile.ofWords_eq_some hw
        exact .inr (.inr (.inl ⟨S.s0, S.s1, S.s2, S.s3, rfl, rfl⟩))
    | next => exact .inr (.inr (.inr ⟨.inl rfl, rfl⟩))
    | rand => exact .inr (.inr (.inr ⟨.inr (.inl rfl), rfl⟩))
    | randint high => exact .inr (.inr (.inr ⟨.inr (.inr ⟨high, rfl⟩), rfl⟩))
    | min | max | state => exact .inl rfl
  case rejected =>
    intro c e s t hc h
    obtain rfl : s.respond .illegalCommand [] = t := by simpa [runCommand_error hc] using h
    exact State.respond_regs ..
  case waiting =>
    intro s hs
    rw [step, hs, fetch_nil, ← hs]

/-- Settles O28: receiving leaves the registers alone, so a change comes from the command it ends in, and a command that
changes them was not rejected. -/
theorem registerChangeComesFromFirstCommand : Obligations.RegisterChangeComesFromFirstCommand := by
  intro s t used hs hstep hused hreset hchange
  rcases step_cases_of_noReset hstep hused hreset with ⟨c, u, hfetch, hrun⟩ | hfetch
  · obtain ⟨hreceived, -⟩ := fetch_eq_command hfetch
    obtain ⟨hwords, hlen⟩ := fetch_command_words hs hfetch
    cases hc : decodeCommand c with
    | ok i =>
      have hexec : exec i u = .next t := by rw [← runCommand_ok hc, hrun]
      obtain ⟨-, hinbound, -⟩ := exec_samePorts hexec
      refine ⟨i, u, ?_, hreceived.regs, hexec⟩
      rw [hwords, decode_words hlen, hc, hinbound]
      rfl
    | error e =>
      obtain ⟨-, rejected, -⟩ := registersChangeInThreeWays
      exact absurd ((rejected c e u t hc hrun).trans hreceived.regs) hchange
  · obtain ⟨hreceived, -⟩ := fetch_eq_waiting hfetch
    exact absurd hreceived.regs hchange

/-- Settles O38: bit `32 k + i` of the four words set side by side falls in word `k`. -/
theorem stateViewPlacesWords : Obligations.StateViewPlacesWords := by
  intro S i hi
  unfold RegFile.view
  refine ⟨?_, ?_, ?_, ?_⟩ <;> simp only [BitVec.getLsbD_append]
  · rw [if_pos hi]
  · rw [if_neg (by omega), if_pos (by omega), Nat.add_sub_cancel_left]
  · rw [if_neg (by omega), if_neg (by omega), if_pos (by omega), show 64 + i - 32 - 32 = i by omega]
  · rw [if_neg (by omega), if_neg (by omega), if_neg (by omega), show 96 + i - 32 - 32 - 32 = i by omega]

/-! ## What the registers and the commands alone decide (R33) -/

/-- A list of commands does the same from every state with the registers `S`: it leaves registers and appends a response
that depend on `S` and the list only, and touches nothing else. -/
theorem runCommands_of_regs (is : List Instr) (S : RegFile) :
    ∃ S' r, ∀ s : State, s.regs = S →
      runCommands is s = .next { s with regs := S', outbound := s.outbound ++ r } := by
  induction is generalizing S with
  | nil => exact ⟨S, [], by rintro s rfl; simp⟩
  | cons i is ih =>
    obtain ⟨S', r, hrun⟩ := ih (regsAfter i S)
    refine ⟨S', responseTo i S ++ r, ?_⟩
    rintro s rfl
    rw [runCommands_cons, hrun _ rfl, List.append_assoc]

/-- Settles O29: both runs are the one run of those registers. -/
theorem sameRegistersSameResponse : Obligations.SameRegistersSameResponse := by
  intro is s s' t hregs ht
  obtain ⟨S', r, hrun⟩ := runCommands_of_regs is s.regs
  obtain rfl : _ = t := by simpa [hrun s rfl] using ht
  exact ⟨_, r, hrun s' hregs.symm, rfl, rfl, rfl⟩

/-- Settles O30: SEED leaves the same registers and the same response whatever was before, and the rest of the list runs
from those registers. -/
theorem sameSeedSameSequence : Obligations.SameSeedSameSequence := by
  intro v is s s'
  obtain ⟨S', r, hrun⟩ := runCommands_of_regs is (expandSeed v)
  have fromSeed (u : State) : runCommands (.seed v :: is) u =
      .next { u with regs := S', outbound := u.outbound ++ (responseTo (.seed v) u.regs ++ r) } := by
    rw [runCommands_cons, hrun _ rfl, List.append_assoc]
  exact ⟨_, _, _, fromSeed s, fromSeed s', rfl, rfl, rfl⟩

/-- R147: a rejected command, and an LDST of other than four words, does nothing but send its one error word. -/
theorem runCommand_failed {c : Command}
    (hfail : (∃ e, decodeCommand c = .error e) ∨ ∃ words, decodeCommand c = .ok (.ldst words) ∧ words.length ≠ 4) :
    ∃ e : Word, (e = 0x00000001#32 ∨ e = 0x00000002#32) ∧
      ∀ s, runCommand c s = .next { s with outbound := s.outbound ++ [e] } := by
  rcases hfail with ⟨e, he⟩ | ⟨words, hc, hlen⟩
  · refine ⟨_, .inr statusWord_illegalCommand, fun s => ?_⟩
    rw [runCommand_error he]
    rfl
  · have hnone : RegFile.ofWords words = none := by
      simpa [hlen] using RegFile.ofWords_isSome words
    refine ⟨_, .inl statusWord_invalidState, fun s => ?_⟩
    rw [runCommand_ok hc, exec_eq]
    simp [regsAfter, responseTo, hnone]

/-- Settles O34: the failed command leaves the registers, and these decide the rest. -/
theorem failedCommandIsForgotten : Obligations.FailedCommandIsForgotten := by
  intro c s u hu hfail is
  have hfail' : (∃ e, decodeCommand c = .error e) ∨
      ∃ words, decodeCommand c = .ok (.ldst words) ∧ words.length ≠ 4 := by
    rcases hfail with he | he | he | hl
    exacts [.inl ⟨_, he⟩, .inl ⟨_, he⟩, .inl ⟨_, he⟩, .inr hl]
  obtain ⟨e, he, hrunC⟩ := runCommand_failed hfail'
  obtain rfl : _ = u := by simpa [hrunC s] using hu
  obtain ⟨S', r, hrun⟩ := runCommands_of_regs is s.regs
  exact ⟨_, _, e, r, hrun s rfl, hrun _ rfl, rfl, he, rfl, List.append_assoc .., rfl, rfl, rfl, rfl⟩

end Sys2Proof.Machine

/-! PROOFS. The streams and the order of commands (20_memory.md): what a run over a stream of commands is, which events a
step takes, and which commands can be repeated. -/

namespace Sys2Proof.Machine

/-! ## A stream of commands runs to the fold of their meanings (R46) -/

/-- R60, R65: the command the encoder builds is a whole one, and decodes to the instruction it was built from. -/
theorem decodeCommand_encodeCommand {i : Instr} (h : i.wellFormed = true) :
    decodeCommand (encodeCommand i) = .ok i ∧
      (encodeCommand i).payload.length = payloadLen (encodeCommand i).header := by
  obtain ⟨hlen, hop, hrsv⟩ := Laws.Framing.of_length (Instr.operands_length_lt h)
  refine ⟨?_, hlen.symm⟩
  simp only [decodeCommand, hop, hrsv, hlen]
  cases i <;> rfl

/-- Between commands, a stream that begins with an instruction's words makes the step that instruction's `exec`. -/
theorem step_encode {i : Instr} (hi : i.wellFormed = true) {s : State} (hs : s.receiving = none) {evs : List HostEvent}
    (hin : s.inbound = (encode i).map .word ++ evs) : step s = exec i { s with inbound := evs } := by
  obtain ⟨hdec, hlen⟩ := decodeCommand_encodeCommand hi
  rw [step_command _ hlen evs s hs hin, runCommand_ok hdec]

/-- Settles O20, by induction on the list: the first step is the first command's `exec`, which leaves the machine between
commands with the words of the others next on its stream. -/
theorem streamRunIsLeftFoldOfExec : Obligations.StreamRunIsLeftFoldOfExec := by
  intro is
  induction is with
  | nil =>
    intro s evs _ _ hin
    obtain rfl : s.inbound = evs := hin
    rfl
  | cons i is ih =>
    intro s evs hwf hs hin
    obtain ⟨hi, his⟩ := List.forall_mem_cons.mp hwf
    have hfirst : step s = exec i { s with inbound := (is.flatMap encode).map .word ++ evs } :=
      step_encode hi hs (by rw [hin, List.flatMap_cons, List.map_append, List.append_assoc])
    rw [List.length_cons, runSteps, hfirst, exec_eq, runCommands_cons]
    exact ih _ evs his hs rfl

/-! ## The events a step takes (R46, R67) -/

/-- Settles O21: a command takes the events up to its last word, a reset those up to `rst`, and a wait takes them all. -/
theorem stepConsumesEventsInOrder : Obligations.StepConsumesEventsInOrder := by
  intro s t hstep
  rcases step_cases hstep with ⟨c, u, hfetch, hrun⟩ | hfetch | hfetch
  · obtain ⟨-, -, -, used, hused, hne⟩ := fetch_eq_command hfetch
    obtain ⟨S, r, rfl⟩ := runCommand_eq_next hrun
    exact ⟨used, hused, fun _ => hne⟩
  · obtain ⟨-, -, -, used, hused⟩ := fetch_eq_wasReset hfetch
    exact ⟨used ++ [.reset], by rw [hused, List.append_assoc]; rfl, fun _ => by simp⟩
  · obtain ⟨-, hall, -⟩ := fetch_eq_waiting hfetch
    exact ⟨s.inbound, by rw [hall, List.append_nil], id⟩

/-! ## Repeating a command (R43) -/

/-- A command that makes no step leaves registers that do not depend on those it found, or the ones it found. -/
theorem regsAfter_regsAfter {i : Instr} (h : i.extracts = false) (S : RegFile) :
    regsAfter i (regsAfter i S) = regsAfter i S := by
  cases i with
  | seed | min | max | state => rfl
  | ldst words => cases hw : RegFile.ofWords words <;> simp [regsAfter, hw]
  | next | randint | rand => cases h

/-- R107: NEXT, RANDINT and RAND make the same one step. -/
theorem regsAfter_of_extracts {i : Instr} (h : i.extracts = true) (S : RegFile) : regsAfter i S = S.advance := by
  cases i with
  | next | randint | rand => rfl
  | seed | ldst | min | max | state => cases h

/-- A second step changes the registers again where S1 and S2 differ: they are the oldest word after one step and after
two. -/
theorem RegFile.advance_advance_ne {S : RegFile} (h : S.s2 ≠ S.s1) : S.advance.advance ≠ S.advance :=
  fun heq => h (congrArg RegFile.s0 heq)

/-- Settles O36: by `regsAfter`, and for the extractions by a state with S1 = 2 and S2 = 3. -/
theorem onlyExtractionsAreNotIdempotent : Obligations.OnlyExtractionsAreNotIdempotent := by
  refine ⟨?idempotent, ?extractions⟩
  case idempotent =>
    intro i s h
    exact ⟨_, _, exec_eq i s, exec_eq i _, regsAfter_regsAfter h s.regs⟩
  case extractions =>
    intro i h
    refine ⟨{ State.reset with regs := ⟨1, 2, 3, 4⟩ }, _, _, exec_eq i _, exec_eq i _, ?_⟩
    simp only [regsAfter_of_extracts h]
    exact RegFile.advance_advance_ne (by decide)

end Sys2Proof.Machine

/-! PROOFS. The encoding (30_encoding.md): what the decoder accepts and rejects, what a response looks like, and how commands
and responses are framed on the two streams. -/

namespace Sys2Proof.Machine

/-! ## Decoder and encoder (R60 to R65) -/

/-- Settles O10: the encoder's command is a whole one, which the decoder reads and decodes back. -/
theorem decodeOfEncodeIsIdentity : Obligations.DecodeOfEncodeIsIdentity := by
  intro i rest hi
  obtain ⟨hdec, hlen⟩ := decodeCommand_encodeCommand hi
  rw [encode, decode_words hlen, hdec]
  rfl

/-- Operands that a header can announce make a well-formed instruction. -/
theorem wellFormed_of_operands_length_lt {i : Instr} (h : i.operands.length < 256) : i.wellFormed = true := by
  cases i with
  | ldst words => exact decide_eq_true (Nat.le_of_lt_succ h)
  | seed | next | min | max | randint | rand | state => rfl

/-- R61, R74: an accepted command is the one the encoder builds, since its fields are the instruction's and a header is
nothing but its fields. -/
theorem eq_encodeCommand {c : Command} {i : Instr} (hlen : c.payload.length = payloadLen c.header)
    (h : decodeCommand c = .ok i) : i.wellFormed = true ∧ c = encodeCommand i := by
  obtain ⟨hrsv, hop, hpayload⟩ := decodeCommand_eq_ok h
  obtain ⟨header, payload⟩ := c
  obtain rfl : i.operands = payload := hpayload
  have hlen' : i.operands.length = (headerLen header).toNat := hlen
  refine ⟨wellFormed_of_operands_length_lt (hlen ▸ payloadLen_lt header), ?_⟩
  rw [encodeCommand, hlen', BitVec.ofNat_toNat, BitVec.setWidth_eq, ← hop, mkHeader_fields hrsv]

/-- Settles O11: what decodes is one whole accepted command and the words after it. -/
theorem decodedWordsAreTheEncoding : Obligations.DecodedWordsAreTheEncoding := by
  intro ws rest i h
  obtain ⟨c, hws, hlen, hdec⟩ := decode_eq_ok h
  obtain ⟨hwf, rfl⟩ := eq_encodeCommand hlen hdec
  exact ⟨hwf, hws⟩

/-! ## The tests of the decode function, one equation each (R65) -/

section DecodeEquations

variable {h : Word} {payload : List Word}

/-- Test 1. -/
theorem decodeCommand_of_rsv (hr : headerRsv h ≠ 0) : decodeCommand ⟨h, payload⟩ = .error .reservedNotZero := if_pos hr

/-- Test 2. -/
theorem decodeCommand_of_unassigned (hr : headerRsv h = 0)
    (ho : (headerOp h).toNat = 0 ∨ 9 ≤ (headerOp h).toNat) :
    decodeCommand ⟨h, payload⟩ = .error .unassignedOpcode := by
  simp only [decodeCommand, hr, ne_eq, not_true_eq_false, if_false, if_pos ho]

/-- Test 3, as the model reads it (notes/assumptions/9.md). -/
theorem decodeCommand_of_ldst (hr : headerRsv h = 0) (ho : (headerOp h).toNat = 2) :
    decodeCommand ⟨h, payload⟩ = .ok (.ldst payload) := by
  simp [decodeCommand, hr, ho]

/-- Test 4. -/
theorem decodeCommand_of_len_ne (hr : headerRsv h = 0) (ho : (headerOp h).toNat ∈ [1, 3, 4, 5, 6, 7, 8])
    (hl : payloadLen h ≠ requiredLen (headerOp h).toNat) :
    decodeCommand ⟨h, payload⟩ = .error .wrongLength := by
  simp only [List.mem_cons, List.not_mem_nil, or_false] at ho
  simp only [decodeCommand, hr, ne_eq, not_true_eq_false, if_false, if_pos hl]
  rw [if_neg (by omega), if_neg (by omega)]

/-- Test 5. -/
theorem decodeCommand_of_len_eq (hr : headerRsv h = 0) (ho : (headerOp h).toNat ∈ [1, 3, 4, 5, 6, 7, 8])
    (hl : payloadLen h = requiredLen (headerOp h).toNat) :
    decodeCommand ⟨h, payload⟩ = commandOf (headerOp h).toNat payload := by
  simp only [List.mem_cons, List.not_mem_nil, or_false] at ho
  simp only [decodeCommand, hr, hl, ne_eq, not_true_eq_false, if_false]
  rw [if_neg (by omega), if_neg (by omega)]

end DecodeEquations

/-- Settles O12: test by test, the fields of the header being the digits of the number it is. -/
theorem decodeFollowsTestOrder : Obligations.DecodeFollowsTestOrder := by
  intro h payload rest op len rsv
  have hop : (headerOp h).toNat = op := headerOp_toNat h
  have hpl : payloadLen h = len := payloadLen_eq h
  have hrsv : headerRsv h = 0 ↔ rsv = 0 := headerRsv_eq_zero h
  clear_value op len rsv
  subst hop hpl
  intro hlen
  have hdec : decode (h :: payload ++ rest) = (decodeCommand ⟨h, payload⟩).map (fun i => (i, rest)) :=
    decode_words (c := ⟨h, payload⟩) hlen rest
  have test4 (hr : rsv = 0) (ho : (headerOp h).toNat ∈ [1, 3, 4, 5, 6, 7, 8])
      (hl : payloadLen h ≠ requiredLen (headerOp h).toNat) :
      decode (h :: payload ++ rest) = .error .wrongLength := by
    rw [hdec, decodeCommand_of_len_ne (hrsv.2 hr) ho hl]
    rfl
  have test5 (hr : rsv = 0) (ho : (headerOp h).toNat ∈ [1, 3, 4, 5, 6, 7, 8])
      (hl : payloadLen h = requiredLen (headerOp h).toNat) :
      decode (h :: payload ++ rest) = (commandOf (headerOp h).toNat payload).map (fun i => (i, rest)) := by
    rw [hdec, decodeCommand_of_len_eq (hrsv.2 hr) ho hl]
  have noPayload (hl : payloadLen h = 0) : payload = [] := List.length_eq_zero_iff.1 (hlen.trans hl)
  have onePayload (hl : payloadLen h = 1) : ∃ v, payload = [v] := List.length_eq_one_iff.1 (hlen.trans hl)
  refine ⟨?reserved, ?unassigned, ?ldst, ?len1, ?len0, ?seed, ?randint, ?next, ?min, ?max, ?rand, ?state⟩
  case reserved =>
    intro hr
    rw [hdec, decodeCommand_of_rsv (mt hrsv.1 hr)]
    rfl
  case unassigned =>
    intro hr ho
    rw [hdec, decodeCommand_of_unassigned (hrsv.2 hr) ho]
    rfl
  case ldst =>
    intro hr ho
    rw [hdec, decodeCommand_of_ldst (hrsv.2 hr) ho]
    rfl
  case len1 =>
    rintro hr (ho | ho) hl <;> exact test4 hr (by simp [ho]) (by simpa [ho, requiredLen] using hl)
  case len0 =>
    intro hr ho hl
    simp only [List.mem_cons, List.not_mem_nil, or_false] at ho
    rcases ho with ho | ho | ho | ho | ho <;> exact test4 hr (by simp [ho]) (by simpa [ho, requiredLen] using hl)
  case seed | randint =>
    intro hr ho hl
    obtain ⟨v, rfl⟩ := onePayload hl
    refine ⟨v, rfl, ?_⟩
    rw [test5 hr (by simp [ho]) (by simp [ho, hl, requiredLen]), ho]
    rfl
  case next | min | max | rand | state =>
    intro hr ho hl
    obtain rfl := noPayload hl
    rw [test5 hr (by simp [ho]) (by simp [ho, hl, requiredLen]), ho]
    rfl

/-- Settles O9: ten of the lists by evaluating the decoder, the 256 words of ones by test 1. -/
theorem handWrittenWordsDecode : Obligations.HandWrittenWordsDecode := by
  refine ⟨by decide, by decide, by decide, by decide, by decide, by decide, by decide, by decide, by decide, by decide,
    ?reserved⟩
  obtain ⟨reserved, -⟩ := decodeFollowsTestOrder 0xFFFFFFFF#32 (List.replicate 255 0xFFFFFFFF#32) []
    (List.length_replicate ..)
  rw [List.append_nil] at reserved
  exact reserved (by decide)

/-! ## The opcode map's masks and match values (R64) -/

/-- R64: but for LDST, a command carries the number of operands its opcode requires. -/
theorem operands_length_eq (i : Instr) : i.opcode = 0x02 ∨ i.operands.length = requiredLen i.opcode.toNat := by
  cases i with
  | ldst => exact .inl rfl
  | seed | next | min | max | randint | rand | state => exact .inr rfl

/-- R65 test 5: with the payload its opcode requires, a command of an assigned opcode other than LDST's is accepted. -/
theorem commandOf_ok {op : Nat} {payload : List Word} (ho : op ∈ [1, 3, 4, 5, 6, 7, 8])
    (hl : payload.length = requiredLen op) : ∃ i, commandOf op payload = .ok i := by
  by_cases h1 : op = 1 ∨ op = 6
  · obtain ⟨v, rfl⟩ : ∃ v, payload = [v] := List.length_eq_one_iff.1 (by rw [hl, requiredLen, if_pos h1])
    rcases h1 with rfl | rfl <;> exact ⟨_, rfl⟩
  · have h0 : op = 3 ∨ op = 4 ∨ op = 5 ∨ op = 7 ∨ op = 8 := by
      simp only [List.mem_cons, List.not_mem_nil, or_false] at ho
      omega
    obtain rfl : payload = [] := List.length_eq_zero_iff.1 (by rw [hl, requiredLen, if_neg h1, if_neg (by omega)])
    rcases h0 with rfl | rfl | rfl | rfl | rfl <;> exact ⟨_, rfl⟩

/-- The fields that make a whole command one of the opcode `op`, other than LDST's. -/
theorem decodes_to_opcode_iff {c : Command} (hc : c.payload.length = payloadLen c.header) {op : BitVec 8}
    (ho : op.toNat ∈ [1, 3, 4, 5, 6, 7, 8]) :
    (∃ i, decodeCommand c = .ok i ∧ i.opcode = op) ↔
      headerRsv c.header = 0 ∧ headerOp c.header = op ∧ payloadLen c.header = requiredLen op.toNat := by
  constructor
  · rintro ⟨i, hi, rfl⟩
    obtain ⟨hrsv, hop, hpayload⟩ := decodeCommand_eq_ok hi
    refine ⟨hrsv, hop, ?_⟩
    rcases operands_length_eq i with h2 | hlen
    · rw [h2] at ho
      exact absurd ho (by decide)
    · rw [← hc, ← hpayload, hlen]
  · rintro ⟨hrsv, rfl, hlen⟩
    obtain ⟨i, hi⟩ := commandOf_ok ho (hc.trans hlen)
    have hdec : decodeCommand c = .ok i := by rw [decodeCommand_of_len_eq hrsv ho hlen, hi]
    obtain ⟨-, hop, -⟩ := decodeCommand_eq_ok hdec
    exact ⟨i, hdec, hop.symm⟩

/-- The fields that make a command an LDST. -/
theorem decodes_to_ldst_iff (c : Command) :
    (∃ i, decodeCommand c = .ok i ∧ i.opcode = 0x02) ↔ headerRsv c.header = 0 ∧ headerOp c.header = 0x02 := by
  constructor
  · rintro ⟨i, hi, h2⟩
    obtain ⟨hrsv, hop, -⟩ := decodeCommand_eq_ok hi
    exact ⟨hrsv, hop.trans h2⟩
  · rintro ⟨hrsv, hop⟩
    exact ⟨_, decodeCommand_of_ldst hrsv (congrArg BitVec.toNat hop), rfl⟩

/-- A header is one word exactly when its three fields are that word's. -/
theorem header_eq_iff (h k : Word) :
    h = k ↔ headerRsv h = headerRsv k ∧ headerOp h = headerOp k ∧ headerLen h = headerLen k := by
  constructor
  · rintro rfl
    exact ⟨rfl, rfl, rfl⟩
  · rintro ⟨hrsv, hop, hlen⟩
    rw [header_eq_fields h, header_eq_fields k, hrsv, hop, hlen]

@[simp] theorem headerRsv_and (h m : Word) : headerRsv (h &&& m) = headerRsv h &&& headerRsv m :=
  BitVec.extractLsb'_and
@[simp] theorem headerOp_and (h m : Word) : headerOp (h &&& m) = headerOp h &&& headerOp m :=
  BitVec.extractLsb'_and
@[simp] theorem headerLen_and (h m : Word) : headerLen (h &&& m) = headerLen h &&& headerLen m :=
  BitVec.extractLsb'_and

/-- LDST's mask keeps `rsv` and `op` and drops `len`. -/
theorem and_ldstMask_eq_iff (h : Word) :
    h &&& 0xFFFF00FF#32 = 0x00000002#32 ↔ headerRsv h = 0 ∧ headerOp h = 0x02 := by
  have hrsv : headerRsv (h &&& 0xFFFF00FF#32) = headerRsv h := by rw [headerRsv_and]; exact BitVec.and_allOnes
  have hop : headerOp (h &&& 0xFFFF00FF#32) = headerOp h := by rw [headerOp_and]; exact BitVec.and_allOnes
  have hlen : headerLen (h &&& 0xFFFF00FF#32) = 0 := by rw [headerLen_and]; exact BitVec.and_zero
  have value : headerRsv 0x00000002#32 = 0 ∧ headerOp 0x00000002#32 = 0x02 ∧ headerLen 0x00000002#32 = 0 := by decide
  simp [header_eq_iff, hrsv, hop, hlen, value]

/-- The rows with the full mask: the match value is the header with `rsv` 0 and the opcode's required `len`. -/
theorem and_fullMask_eq_iff (h : Word) {value : Word} {op : BitVec 8}
    (hv : headerRsv value = 0 ∧ headerOp value = op ∧ payloadLen value = requiredLen op.toNat) :
    h &&& 0xFFFFFFFF#32 = value ↔
      headerRsv h = 0 ∧ headerOp h = op ∧ payloadLen h = requiredLen op.toNat := by
  obtain ⟨hrsv, hop, hlen⟩ := hv
  have fullMask : h &&& 0xFFFFFFFF#32 = h := BitVec.and_allOnes
  rw [fullMask, header_eq_iff, hrsv, hop, ← hlen, payloadLen, payloadLen, BitVec.toNat_inj]

/-- Settles O13, row by row: the mask and match value say of the fields what makes the command the row's. -/
theorem headerSelectsTableRow : Obligations.HeaderSelectsTableRow := by
  intro c hc row hrow
  simp only [List.mem_cons, List.not_mem_nil, or_false] at hrow
  rcases hrow with rfl | rfl | rfl | rfl | rfl | rfl | rfl | rfl
  case inr.inl => exact (decodes_to_ldst_iff c).trans (and_ldstMask_eq_iff c.header).symm
  all_goals exact (decodes_to_opcode_iff hc (by decide)).trans (and_fullMask_eq_iff c.header (by decide)).symm

/-! ## The shape of a response (R68 to R70) -/

/-- A status word is laid out like a header: `status` where a header has `op`, `rlen` where it has `len`. -/
theorem statusWord_eq_mkHeader (st : Status) (rlen : Nat) :
    statusWord st rlen = mkHeader st.code (BitVec.ofNat 8 rlen) := rfl

/-- R68: the fields of a status word. -/
theorem statusWord_fields (st : Status) {rlen : Nat} (h : rlen < 256) :
    (statusWord st rlen).toNat / 256 % 256 = rlen ∧ (statusWord st rlen).toNat / 65536 = 0 ∧
      (statusWord st rlen).toNat % 256 = st.code.toNat := by
  rw [← payloadLen_eq, ← headerRsv_toNat, ← headerOp_toNat, statusWord_eq_mkHeader]
  simp [Nat.mod_eq_of_lt h]

/-- R70: a command's response is a status word and the result words it announces. -/
theorem responseTo_shape (i : Instr) (S : RegFile) :
    ∃ st results, responseTo i S = statusWord st results.length :: results ∧ results.length ∈ [0, 1, 2, 4] := by
  cases i with
  | seed | ldst => exact ⟨_, [], rfl, by decide⟩
  | next | min | max | randint => exact ⟨.ok, [_], rfl, by simp⟩
  | rand => exact ⟨.ok, halves _, rfl, by simp [halves]⟩
  | state => exact ⟨.ok, S.words, rfl, by simp [RegFile.words]⟩

/-- Settles O45, command by command, from the response `responseTo` names. -/
theorem responseShapePerCommand : Obligations.ResponseShapePerCommand := by
  intro i s t h
  obtain rfl := exec_next h
  cases i with
  | seed | next | min | max | rand | state => exact ⟨_, _, rfl, by decide, rfl⟩
  | ldst words =>
    refine ⟨_, [], rfl, ?_, rfl⟩
    by_cases hw : words.length = 4 <;> simp [RegFile.ofWords_isSome, hw]
  | randint high => exact ⟨_, [_], rfl, statusWord_ok_one, congrArg (fun n => [n]) (boundedDraw_toNat _ high)⟩

/-! ## Framing on the command stream (R60, R67, R68) -/

/-- R33, R68: what a whole command does, executed or rejected, is decided by its words and the registers: it leaves some
registers and adds one response. -/
theorem runCommand_of_regs (c : Command) (S : RegFile) :
    ∃ S' st results, results.length ∈ [0, 1, 2, 4] ∧ ∀ s : State, s.regs = S →
      runCommand c s =
        .next { s with regs := S', outbound := s.outbound ++ statusWord st results.length :: results } := by
  cases hc : decodeCommand c with
  | ok i =>
    obtain ⟨st, results, hresponse, hlen⟩ := responseTo_shape i S
    refine ⟨regsAfter i S, st, results, hlen, ?_⟩
    rintro s rfl
    rw [runCommand_ok hc, exec_eq, hresponse]
  | error e =>
    refine ⟨S, .illegalCommand, [], by decide, ?_⟩
    rintro s rfl
    rw [runCommand_error hc]
    rfl

/-- Settles O17: the step runs the command, and its one response is a status word and the results it announces. -/
theorem wholeCommandGetsOneResponse : Obligations.WholeCommandGetsOneResponse := by
  intro s h payload ws evs hlen hws hwords hin
  have hwhole : payload.length = payloadLen h := hlen.trans (payloadLen_eq h).symm
  obtain ⟨S', st, results, hresults, hrun⟩ := runCommand_of_regs ⟨h, payload⟩ s.regs
  have hshort : results.length < 256 := by
    simp only [List.mem_cons, List.not_mem_nil, or_false] at hresults
    omega
  obtain ⟨hrlen, hzero, hstatus⟩ := statusWord_fields st hshort
  have hcode : st.code.toNat ∈ [0, 1, 2] := by cases st <;> decide
  have hstep := (step_received (c := ⟨h, payload⟩) hwhole hws hwords hin).trans (hrun _ rfl)
  exact ⟨_, _, results, hstep, rfl, rfl, rfl, rfl, rfl, hrlen, hresults, hzero, hstatus ▸ hcode⟩

/-- Settles O18: the words make no whole command with those received before, so they join them and the stream ends. -/
theorem partialCommandWaits : Obligations.PartialCommandWaits := by
  intro s h payload ws hlen hwords hin
  rw [← payloadLen_eq] at hlen
  have hfetch : fetch (ws.map .word ++ []) s = .waiting { s with receiving := some ⟨h, payload⟩, inbound := [] } := by
    unfold State.receivedWords at hwords
    cases hs : s.receiving with
    | none =>
      obtain rfl : ws = h :: payload := by simpa [hs] using hwords
      rw [List.map_cons, List.cons_append, fetch_word_more,
        fetch_partial payload [] _ ⟨h, []⟩ (by simp [hs, Command.receive]) (by simpa using hlen)]
      · simp
      · simp [hs, Command.receive, Command.complete]
        omega
    | some c =>
      obtain ⟨rfl, rfl⟩ : c.header = h ∧ c.payload ++ ws = payload := by simpa [hs, Command.words] using hwords
      rw [fetch_partial ws [] s c hs (by simpa using hlen), fetch_nil]
  rw [List.append_nil, ← hin] at hfetch
  rw [step, hfetch]

/-! ## The response stream and the host's accepts (R73) -/

/-- Settles O25: receiving only moves response words from the queue to the host, and a command adds its response at the
queue's end. -/
theorem noResponseWordIsLost : Obligations.NoResponseWordIsLost := by
  intro s t used hstep hused hreset
  rcases step_cases_of_noReset hstep hused hreset with ⟨c, u, hfetch, hrun⟩ | hfetch
  · obtain ⟨hreceived, -⟩ := fetch_eq_command hfetch
    obtain ⟨S, r, rfl⟩ := runCommand_eq_next hrun
    exact ⟨r, by simp only [← List.append_assoc, hreceived.stream]⟩
  · obtain ⟨hreceived, -⟩ := fetch_eq_waiting hfetch
    exact ⟨[], by rw [List.append_nil, hreceived.stream]⟩

/-- `s'` is `s` but for the host's accepts: `s` may have more of its response words transferred already, and accepts still to
come that `s'` has not. -/
structure AcceptsRemoved (s s' : State) : Prop where
  regs      : s'.regs = s.regs
  receiving : s'.receiving = s.receiving
  inbound   : s'.inbound = s.inbound.filter (· ≠ .accept)
  stream    : s'.responses ++ s'.outbound = s.responses ++ s.outbound

/-- Receiving that comes to the same but for the host's accepts. Nothing is said of a reset: it takes away the response words
not transferred yet, so there the accepts before it matter. -/
def FetchedAlike : Fetched → Fetched → Prop
  | .command c u, f => ∃ u', f = .command c u' ∧ AcceptsRemoved u u'
  | .waiting u, f => ∃ u', f = .waiting u' ∧ AcceptsRemoved u u'
  | .wasReset _, _ => True

theorem AcceptsRemoved.accept {s s' : State} (h : AcceptsRemoved s s') : AcceptsRemoved s.acceptWord s' := by
  obtain ⟨hregs, hreceiving, hinbound, hstream⟩ := h
  exact ⟨by simpa, by simpa, by simpa using hinbound, by simpa⟩

/-- R73: receiving comes to the same with every accept event removed. -/
theorem fetch_filter_accept (evs : List HostEvent) {s s' : State} (h : AcceptsRemoved s s') :
    FetchedAlike (fetch evs s) (fetch (evs.filter (· ≠ .accept)) s') := by
  induction evs generalizing s s' with
  | nil => exact ⟨_, rfl, h.regs, h.receiving, rfl, h.stream⟩
  | cons e evs ih =>
    cases e with
    | accept => exact ih h.accept
    | reset => exact trivial
    | word w =>
      rw [List.filter_cons_of_pos (by simp)]
      cases hc : (Command.receive w s.receiving).complete with
      | true =>
        rw [fetch_word_complete hc, fetch_word_complete (by rwa [h.receiving]), h.receiving]
        exact ⟨_, rfl, h.regs, rfl, rfl, h.stream⟩
      | false =>
        rw [fetch_word_more hc, fetch_word_more (by rwa [h.receiving]), h.receiving]
        exact ih ⟨h.regs, rfl, h.inbound, h.stream⟩

/-- A whole command does the same in two states that differ in the host's accepts only. -/
theorem AcceptsRemoved.runCommand {u u' t : State} (h : AcceptsRemoved u u') {c : Command}
    (ht : runCommand c u = .next t) : ∃ t', runCommand c u' = .next t' ∧ AcceptsRemoved t t' := by
  obtain ⟨S', st, results, -, hrun⟩ := runCommand_of_regs c u.regs
  obtain rfl : _ = t := by simpa [hrun u rfl] using ht
  refine ⟨_, hrun u' h.regs, rfl, h.receiving, h.inbound, ?_⟩
  simp only [← List.append_assoc, h.stream]

/-- Settles O35: receiving comes to the same without the accepts, and the command it ends in does the same. -/
theorem acceptTimingChangesNothing : Obligations.AcceptTimingChangesNothing := by
  intro s t used hstep hused hreset
  have hstart : AcceptsRemoved s { s with inbound := s.inbound.filter (· ≠ .accept) } := ⟨rfl, rfl, rfl, rfl⟩
  have halike := fetch_filter_accept s.inbound hstart
  suffices ∃ t', step { s with inbound := s.inbound.filter (· ≠ .accept) } = .next t' ∧ AcceptsRemoved t t' by
    obtain ⟨t', hstep', hregs, hreceiving, hinbound, hstream⟩ := this
    exact ⟨t', hstep', hregs, hreceiving, hinbound, hstream⟩
  rcases step_cases_of_noReset hstep hused hreset with ⟨c, u, hfetch, hrun⟩ | hfetch
  · rw [hfetch] at halike
    obtain ⟨u', hfetch', hu⟩ := halike
    obtain ⟨t', hrun', ht⟩ := hu.runCommand hrun
    exact ⟨t', by rw [step, hfetch']; exact hrun', ht⟩
  · rw [hfetch] at halike
    obtain ⟨t', hfetch', ht⟩ := halike
    exact ⟨t', by rw [step, hfetch'], ht⟩

end Sys2Proof.Machine

/-! PROOFS. The construction commands (40_construction.md): what SEED and LDST leave and answer, and how close seeds answer
close words. -/

namespace Sys2Proof.Machine

/-! ## LDST by the number of its words (R92, R93) -/

/-- R92: with four words. -/
theorem exec_ldst_four (w0 w1 w2 w3 : Word) (s : State) :
    exec (.ldst [w0, w1, w2, w3]) s =
      .next { s with regs := ⟨w0, w1, w2, w3⟩, outbound := s.outbound ++ [0x00000000#32] } := by
  rw [exec_eq]
  simp [regsAfter, responseTo, RegFile.ofWords]

/-- R93: with any other number of words. -/
theorem exec_ldst_wrongLength {words : List Word} (h : words.length ≠ 4) (s : State) :
    exec (.ldst words) s = .next { s with outbound := s.outbound ++ [0x00000001#32] } := by
  have hnone : RegFile.ofWords words = none := by
    simpa [h] using RegFile.ofWords_isSome words
  rw [exec_eq]
  simp [regsAfter, responseTo, hnone]

/-- Settles O16: the header spells an LDST, whose meaning rejects the length. -/
theorem ldstWrongLengthIsAnswered : Obligations.LdstWrongLengthIsAnswered := by
  intro s h payload ws evs hlen hws hwords hin hrsv hop hne
  have hwhole : payload.length = payloadLen h := hlen.trans (payloadLen_eq h).symm
  have hdec : decodeCommand ⟨h, payload⟩ = .ok (.ldst payload) :=
    decodeCommand_of_ldst ((headerRsv_eq_zero h).mpr hrsv) ((headerOp_toNat h).trans hop)
  have hstep := (step_received (c := ⟨h, payload⟩) hwhole hws hwords hin).trans
    ((runCommand_ok hdec _).trans (exec_ldst_wrongLength (hlen.trans_ne hne) _))
  exact ⟨_, hstep, rfl, rfl, rfl, rfl, rfl, rfl⟩

/-- Settles O2, by the number of words. -/
theorem ldstReplacesStateOrRejects : Obligations.LdstReplacesStateOrRejects := by
  refine ⟨fun w0 w1 w2 w3 s => ⟨?words, ?replaces⟩, fun words s hlen => ?rejects⟩
  case words =>
    have header : mkHeader 0x02 (BitVec.ofNat 8 4) = 0x00000402#32 := by decide
    exact (encode_ldst _).trans (congrArg (· :: _) header)
  case replaces => exact ⟨_, exec_ldst_four w0 w1 w2 w3 s, rfl, rfl, rfl, rfl, rfl, rfl⟩
  case rejects => exact ⟨_, exec_ldst_wrongLength hlen s, rfl, rfl, rfl, rfl, rfl, rfl⟩

/-! ## SEED and the words after it (R90, R91, R95) -/

/-- R91: K0 is not zero, so no expansion is. -/
theorem expandSeed_ne_zero (v : Word) : expandSeed v ≠ ⟨0, 0, 0, 0⟩ := by
  intro h
  have hK0 : seedK0 = 0 := congrArg RegFile.s0 h
  exact absurd hK0 (by decide)

/-- Settles O1: SEED leaves the expansion. -/
theorem seedWritesExpansion : Obligations.SeedWritesExpansion :=
  fun v s => ⟨encode_seed v, _, exec_eq _ s, rfl, expandSeed_ne_zero v, rfl, rfl, rfl, rfl, rfl⟩

/-- R102: the responses of `k` NEXT, from the registers `S`. -/
def nextResponses : Nat → RegFile → List Word
  | 0, _ => []
  | k + 1, S => 0x00000100#32 :: S.newWord :: nextResponses k S.advance

/-- What `k` NEXT do. -/
theorem runCommands_replicate_next (k : Nat) (s : State) :
    runCommands (List.replicate k .next) s =
      .next { s with regs := RegFile.advance^[k] s.regs, outbound := s.outbound ++ nextResponses k s.regs } := by
  induction k generalizing s with
  | zero => simp [nextResponses]
  | succ k ih =>
    rw [List.replicate_succ, runCommands_cons, ih]
    simp [regsAfter, responseTo, nextResponses]

/-- What SEED and `k` NEXT do: the words answered are decided by the seed. -/
theorem runCommands_seed_replicate_next (v : Word) (k : Nat) (s : State) :
    runCommands (.seed v :: List.replicate k .next) s =
      .next { s with
        regs := RegFile.advance^[k] (expandSeed v)
        outbound := s.outbound ++ 0x00000000#32 :: nextResponses k (expandSeed v) } := by
  rw [runCommands_cons, runCommands_replicate_next]
  simp [regsAfter, responseTo]

/-- R100: the newest word enters the datapath as `d XOR (d SHR 19)`, apart from the oldest. -/
theorem datapath_eq_xor (a d : Word) : datapath a d = (d ^^^ (d >>> 19)) ^^^ datapath a 0 := by
  simp [datapath, shrC]

/-- R95, R100: the datapath is linear in its newest word. -/
theorem datapath_xor_right (a d e : Word) :
    datapath a (d ^^^ e) = datapath a d ^^^ (e ^^^ (e >>> 19)) := by
  rw [datapath_eq_xor a (d ^^^ e), datapath_eq_xor a d, BitVec.ushiftRight_xor_distrib]
  ac_rfl

/-- R95: a difference below 2^19 is shifted out whole, so it is its own image. -/
theorem xor_shiftRight_of_lt {d : Word} (h : d.toNat < 2 ^ 19) : d ^^^ (d >>> 19) = d := by
  have hout : d >>> 19 = 0#32 := by
    apply BitVec.eq_of_toNat_eq
    rw [BitVec.toNat_ushiftRight, Nat.shiftRight_eq_div_pow, Nat.div_eq_of_lt h]
    rfl
  rw [hout, BitVec.xor_zero]

/-- Settles O42: in the three steps after SEED the oldest word is a constant, so the seeds' difference goes through the
newest word's half of the datapath alone. -/
theorem seedContinuity : Obligations.SeedContinuity := by
  refine ⟨?differences, fun s => ?words⟩
  case differences =>
    intro v v' s s' delta d1 d2 d3
    have hv' : v' = v ^^^ delta := by simp [delta]
    let n1 := datapath seedK0 v
    let n2 := datapath seedK1 n1
    let n3 := datapath seedK2 n2
    have h1 : datapath seedK0 v' = n1 ^^^ d1 := hv' ▸ datapath_xor_right ..
    have h2 : datapath seedK1 (n1 ^^^ d1) = n2 ^^^ d2 := datapath_xor_right ..
    have h3 : datapath seedK2 (n2 ^^^ d2) = n3 ^^^ d3 := datapath_xor_right ..
    have hresponses' : nextResponses 3 (expandSeed v') =
        [0x00000100#32, n1 ^^^ d1, 0x00000100#32, n2 ^^^ d2, 0x00000100#32, n3 ^^^ d3] := by
      rw [← h3, ← h2, ← h1]
      rfl
    refine ⟨_, _, n1, n2, n3, runCommands_seed_replicate_next v 3 s, runCommands_seed_replicate_next v' 3 s', rfl,
      by rw [hresponses'], fun hlt => ?_⟩
    have hd1 : d1 = delta := xor_shiftRight_of_lt hlt
    have hd2 : d2 = delta := by simp only [d2, hd1, xor_shiftRight_of_lt hlt]
    exact ⟨hd1, hd2, by simp only [d3, hd2, xor_shiftRight_of_lt hlt]⟩
  case words =>
    have h42 : nextResponses 4 (expandSeed 42) = [0x00000100#32, 0x8E415C0C#32, 0x00000100#32, 0x49B3055C#32,
        0x00000100#32, 0x90595A1A#32, 0x00000100#32, 0x9058196B#32] := by decide
    have h43 : nextResponses 4 (expandSeed 43) = [0x00000100#32, 0x8E415C0D#32, 0x00000100#32, 0x49B3055D#32,
        0x00000100#32, 0x90595A1B#32, 0x00000100#32, 0x90581163#32] := by decide
    exact ⟨_, _, runCommands_seed_replicate_next 42 4 s, runCommands_seed_replicate_next 43 4 s,
      by rw [h42], by rw [h43]⟩

end Sys2Proof.Machine

/-! PROOFS. The step and NEXT (41_next_and_datapath.md): the datapath bit by bit, the three maps it is made of and their
inverses, the step as a linear bijection, the all-zero state, and the extractions as one step each. -/

namespace Sys2Proof.Machine

/-! ## The datapath bit by bit (R100) -/

/-- R100: bit `i` of `a SHL 11` is `a[i - 11]`, which a word has for `11 ≤ i` only. -/
theorem getLsbD_shl11 (a : Word) {i : Nat} (hi : i < 32) :
    (a <<< 11).getLsbD i = (decide (11 ≤ i) && a.getLsbD (i - 11)) := by
  simp only [BitVec.getLsbD_shiftLeft, hi, decide_true, Bool.true_and, ← decide_not, Nat.not_lt]

/-- R100: bit `i` of `T1 SHR 8` is `T1[i + 8]`, which a word has for `i ≤ 23` only. -/
theorem getLsbD_shl11_shr8 (a : Word) (i : Nat) :
    ((a ^^^ (a <<< 11)) >>> 8).getLsbD i =
      if i ≤ 23 then (a.getLsbD (i + 8) ^^ (decide (3 ≤ i) && a.getLsbD (i - 3))) else false := by
  rw [BitVec.getLsbD_ushiftRight, Nat.add_comm]
  split
  · next hlow =>
    rw [BitVec.getLsbD_xor, getLsbD_shl11 a (by omega)]
    simp
  · next hhigh => exact BitVec.getLsbD_of_ge _ _ (by omega)

/-- Settles O37: each shift reads one bit of its word, and exclusive-or is bit by bit. -/
theorem newWordBitByBit : Obligations.NewWordBitByBit := by
  refine fun a d => ⟨rfl, fun i hi => ?_⟩
  have hshr : (d >>> 19).getLsbD i = d.getLsbD (i + 19) := by
    rw [BitVec.getLsbD_ushiftRight, Nat.add_comm]
  simp only [datapath, shlA, shrB, shrC, BitVec.getLsbD_xor, getLsbD_shl11_shr8, getLsbD_shl11 a hi, hshr,
    Bool.xor_assoc]

/-! ## The three maps of the datapath and their inverses (R104)

Each inverse is a sum over exclusive-or of powers of the shift: applied to the map's result it telescopes, and the one
power left over shifts every bit out. -/

theorem undoShl11_leftInverse : Function.LeftInverse undoShl11 fun a => a ^^^ (a <<< 11) := by
  intro a
  have hout : a <<< 33 = 0#32 := BitVec.shiftLeft_eq_zero (by decide)
  simp only [undoShl11, BitVec.shiftLeft_xor_distrib, ← BitVec.shiftLeft_add, Nat.reduceAdd, hout]
  grind

theorem undoShr8_leftInverse : Function.LeftInverse undoShr8 fun t => t ^^^ (t >>> 8) := by
  intro t
  have hout : t >>> 32 = 0#32 := BitVec.ushiftRight_eq_zero (by decide)
  simp only [undoShr8, BitVec.ushiftRight_xor_distrib, ← BitVec.shiftRight_add, Nat.reduceAdd, hout]
  grind

/-- The third map is its own inverse. -/
theorem xor_shr19_involutive : Function.Involutive fun d : Word => d ^^^ (d >>> 19) := by
  intro d
  have hout : d >>> 38 = 0#32 := BitVec.ushiftRight_eq_zero (by decide)
  simp only [BitVec.ushiftRight_xor_distrib, ← BitVec.shiftRight_add, Nat.reduceAdd, hout]
  grind

/-! There are finitely many words, so a left inverse is an inverse. -/

theorem xor_shl11_bijective : Function.Bijective fun a : Word => a ^^^ (a <<< 11) :=
  Finite.injective_iff_bijective.mp undoShl11_leftInverse.injective

theorem xor_shr8_bijective : Function.Bijective fun t : Word => t ^^^ (t >>> 8) :=
  Finite.injective_iff_bijective.mp undoShr8_leftInverse.injective

theorem xor_shl11_undoShl11 (t : Word) : undoShl11 t ^^^ (undoShl11 t <<< 11) = t :=
  undoShl11_leftInverse.rightInverse_of_surjective xor_shl11_bijective.surjective t

theorem xor_shr8_undoShr8 (t : Word) : undoShr8 t ^^^ (undoShr8 t >>> 8) = t :=
  undoShr8_leftInverse.rightInverse_of_surjective xor_shr8_bijective.surjective t

/-! ## The datapath and the step (R101, R104) -/

/-- Adding a fixed word twice adds nothing. -/
theorem xor_word_bijective (c : Word) : Function.Bijective fun w : Word => c ^^^ w :=
  Function.Involutive.bijective fun w => by rw [← BitVec.xor_assoc, BitVec.xor_self, BitVec.zero_xor]

/-- R104: linearity, since each shift distributes over exclusive-or. -/
theorem datapath_xor (a a' d d' : Word) : datapath (a ^^^ a') (d ^^^ d') = datapath a d ^^^ datapath a' d' := by
  simp only [datapath, BitVec.shiftLeft_xor_distrib, BitVec.ushiftRight_xor_distrib]
  grind

/-- For a fixed newest word: the two maps of the oldest one, then the newest word's part added. -/
theorem datapath_bijective_left (d : Word) : Function.Bijective fun a => datapath a d :=
  (xor_word_bijective (d ^^^ (d >>> 19))).comp (xor_shr8_bijective.comp xor_shl11_bijective)

/-- For a fixed oldest word: the newest word's map, then the oldest word's part added. -/
theorem datapath_bijective_right (a : Word) : Function.Bijective fun d => datapath a d := by
  have hcomp : (fun d => datapath a d) = (fun u => datapath a 0 ^^^ u) ∘ fun d : Word => d ^^^ (d >>> 19) := by
    funext d
    exact (datapath_eq_xor a d).trans (BitVec.xor_comm ..)
  rw [hcomp]
  exact (xor_word_bijective (datapath a 0)).comp xor_shr19_involutive.bijective

/-- R104: the first lines of UNSTEP give the oldest word's part of N back. -/
theorem datapath_xor_newest (a d : Word) :
    datapath a d ^^^ d ^^^ (d >>> 19) = (a ^^^ (a <<< 11)) ^^^ ((a ^^^ (a <<< 11)) >>> 8) := by
  simp only [datapath, shlA, shrB, shrC]
  grind

/-- R104: the oldest word UNSTEP finds is one from which the step makes N. -/
theorem datapath_undo (n d : Word) : datapath (undoShl11 (undoShr8 (n ^^^ d ^^^ (d >>> 19)))) d = n := by
  simp only [datapath, shlA, shrB, shrC]
  rw [xor_shl11_undoShl11, xor_shr8_undoShr8]
  grind

/-- R104: UNSTEP after the step. -/
theorem RegFile.unstep_advance : Function.LeftInverse RegFile.unstep RegFile.advance := by
  intro S
  have holdest : undoShl11 (undoShr8 (S.newWord ^^^ S.s3 ^^^ (S.s3 >>> 19))) = S.s0 := by
    rw [RegFile.newWord, datapath_xor_newest, undoShr8_leftInverse, undoShl11_leftInverse]
  simp only [RegFile.unstep, RegFile.advance, holdest]

/-- R104: the step after UNSTEP. -/
theorem RegFile.advance_unstep : Function.RightInverse RegFile.unstep RegFile.advance := by
  intro S
  have hword : S.unstep.newWord = S.s3 := datapath_undo S.s3 S.s2
  rw [RegFile.advance, hword]
  rfl

/-- Settles O39: the step's linearity is the datapath's, word by word; the rest stands above. -/
theorem stepIsLinearAndInvertible : Obligations.StepIsLinearAndInvertible := by
  refine ⟨datapath_xor, fun X Y => ?linear, xor_shl11_bijective, xor_shr8_bijective, xor_shr19_involutive.bijective,
    datapath_bijective_left, datapath_bijective_right, RegFile.unstep_advance, RegFile.advance_unstep⟩
  case linear =>
    have hword := datapath_xor X.s0 Y.s0 X.s3 Y.s3
    simp only [RegFile.advance, RegFile.newWord, hword]

/-! ## The all-zero state (R105) -/

/-- R104, R105: the all-zero state steps to itself, and the step is injective. -/
theorem RegFile.advance_eq_zero_iff (S : RegFile) : S.advance = ⟨0, 0, 0, 0⟩ ↔ S = ⟨0, 0, 0, 0⟩ := by
  have hzero : RegFile.advance ⟨0, 0, 0, 0⟩ = ⟨0, 0, 0, 0⟩ := by decide
  conv_lhs => rw [← hzero]
  exact RegFile.unstep_advance.injective.eq_iff

/-- R105: no command makes the registers all zero but the LDST that loads four zeros. -/
theorem regsAfter_ne_zero {i : Instr} {S : RegFile} (hi : i ≠ .ldst [0, 0, 0, 0]) (hS : S ≠ ⟨0, 0, 0, 0⟩) :
    regsAfter i S ≠ ⟨0, 0, 0, 0⟩ := by
  cases i with
  | seed v => exact expandSeed_ne_zero v
  | ldst words =>
    cases hw : RegFile.ofWords words with
    | none => simpa [regsAfter, hw] using hS
    | some T =>
      obtain rfl := RegFile.ofWords_eq_some hw
      have hT : T ≠ ⟨0, 0, 0, 0⟩ := fun hT => hi (by rw [hT]; rfl)
      simpa [regsAfter] using hT
  | next | randint | rand => exact mt (RegFile.advance_eq_zero_iff S).mp hS
  | min | max | state => exact hS

/-- Settles O26, by induction on the list: no command of it makes the registers all zero. -/
theorem nonzeroStateStaysNonzero : Obligations.NonzeroStateStaysNonzero := by
  intro is
  induction is with
  | nil =>
    intro s t ht hs _
    obtain rfl : s = t := by simpa using ht
    exact hs
  | cons i is ih =>
    intro s t ht hs hnot
    obtain ⟨hi, his⟩ := not_or.mp (mt List.mem_cons.mpr hnot)
    rw [runCommands_cons] at ht
    exact ih _ t ht (regsAfter_ne_zero (Ne.symm hi) hs) his

/-! ## The extractions (R102, R103, R105, R107) -/

/-- R105: what the extractions answer where the new word is 0. -/
theorem responseTo_of_newWord_eq_zero {i : Instr} (hi : i.extracts = true) {S : RegFile} (hS : S.newWord = 0) :
    responseTo i S = if i = .rand then [0x00000200#32, 0, 0] else [0x00000100#32, 0] := by
  cases i with
  | next =>
    rw [responseTo, hS]
    rfl
  | randint high =>
    have hdraw : boundedDraw 0 high = 0 := by simp [boundedDraw]
    rw [responseTo, hS, hdraw]
    rfl
  | rand =>
    rw [responseTo, hS]
    rfl
  | seed | ldst | min | max | state => cases hi

/-- Settles O40: the new word of the all-zero state is 0, the step is injective, LDST takes any four words, and an
expanded seed is not zero. -/
theorem zeroStateIsAbsorbing : Obligations.ZeroStateIsAbsorbing := by
  refine ⟨by decide, RegFile.advance_eq_zero_iff, fun s i hs hi => ?extraction, fun s => ?ldst, fun s t v h => ?seed⟩
  case extraction =>
    have hword : s.regs.newWord = 0 := by rw [hs]; decide
    refine ⟨_, exec_eq i s, ?_, congrArg (s.outbound ++ ·) (responseTo_of_newWord_eq_zero hi hword)⟩
    exact (regsAfter_of_extracts hi s.regs).trans ((RegFile.advance_eq_zero_iff s.regs).mpr hs)
  case ldst => exact ⟨_, exec_ldst_four 0 0 0 0 s, rfl, rfl⟩
  case seed =>
    rw [exec_next h]
    exact expandSeed_ne_zero v

/-- Settles O3: NEXT leaves the step's registers and answers its new word. -/
theorem nextReturnsNewWord : Obligations.NextReturnsNewWord :=
  ⟨encode_next, fun s => ⟨_, exec_eq .next s, rfl, rfl, rfl, rfl, rfl, rfl⟩⟩

/-- Settles O41: the bounds are the least and the greatest word, and each is N for some newest word. -/
theorem rawOutputReachesBothBounds : Obligations.RawOutputReachesBothBounds := by
  refine ⟨fun s => ?between, fun s a b c => ?reached⟩
  case between =>
    exact ⟨_, _, _, s.regs.newWord, _, _, exec_eq .min s, rfl, rfl, exec_eq .next s, rfl, rfl, exec_eq .max s, rfl,
      rfl, Nat.zero_le _, Nat.le_of_lt_succ s.regs.newWord.isLt⟩
  case reached =>
    have hreach (n : Word) : ∃ d t, exec .next { s with regs := ⟨a, b, c, d⟩ } = .next t ∧
        t.outbound = s.outbound ++ [0x00000100#32, n] := by
      obtain ⟨d, rfl⟩ := (datapath_bijective_right a).surjective n
      exact ⟨d, _, exec_eq .next _, rfl⟩
    exact ⟨hreach 0x00000000#32, hreach 0xFFFFFFFF#32⟩

/-- R107: a list of extractions makes one step each. -/
theorem runCommands_of_extracts {is : List Instr} (h : ∀ i ∈ is, i.extracts = true) (s : State) :
    ∃ u, runCommands is s = .next u ∧ u.regs = RegFile.advance^[is.length] s.regs := by
  induction is generalizing s with
  | nil => exact ⟨s, rfl, rfl⟩
  | cons i is ih =>
    obtain ⟨hi, his⟩ := List.forall_mem_cons.mp h
    rw [runCommands_cons, regsAfter_of_extracts hi]
    exact ih his _

/-- Settles O33: the list leaves the registers of as many steps, and each extraction after it answers from their new
word. -/
theorem extractionsMakeOneStepEach : Obligations.ExtractionsMakeOneStepEach := by
  intro is s h
  obtain ⟨u, hrun, hregs⟩ := runCommands_of_extracts h s
  exact ⟨u, u.regs.newWord, hrun, hregs, ⟨_, runCommands_replicate_next is.length s, hregs.symm⟩,
    ⟨_, exec_eq .next u, rfl⟩, fun high => ⟨_, _, exec_eq (.randint high) u, rfl, boundedDraw_toNat ..⟩,
    ⟨_, exec_eq .rand u, rfl⟩⟩

end Sys2Proof.Machine

/-! PROOFS. The derived outputs (42_derived_outputs.md): what RAND, RANDINT, MIN, MAX and STATE answer, and that a
snapshot put back replays. -/

namespace Sys2Proof.Machine

/-! ## The binary64 pattern of a ratio (R125) -/

section Layout

/-! A pattern that is `exponent * 2^52 + fraction` as a number has these two as its fields, and sign 0. -/

variable {b : DoubleWord} {exponent fraction : Nat} (hb : b.toNat = exponent * 2 ^ 52 + fraction)
include hb

theorem binary64_sign_eq_false (he : exponent < 2 ^ 11) (hf : fraction < 2 ^ 52) : b.getLsbD 63 = false := by
  have hlt : b.toNat < 2 ^ 63 := by omega
  exact Nat.testBit_lt_two_pow hlt

theorem binary64_exponent (he : exponent < 2 ^ 11) (hf : fraction < 2 ^ 52) :
    (b.extractLsb' 52 11).toNat = exponent := by
  rw [BitVec.extractLsb'_toNat, Nat.shiftRight_eq_div_pow, hb]
  omega

theorem binary64_fraction (hf : fraction < 2 ^ 52) : (b.extractLsb' 0 52).toNat = fraction := by
  rw [BitVec.extractLsb'_toNat, Nat.shiftRight_zero, hb]
  omega

/-- The value of a normal pattern. -/
theorem binary64Value_normal (he : 0 < exponent ∧ exponent < 2047) (hf : fraction < 2 ^ 52) :
    binary64Value b = some (2 ^ ((exponent : ℤ) - 1023) * (1 + (fraction : ℚ) / 2 ^ 52)) := by
  have hlt : exponent < 2 ^ 11 := by omega
  have hzero : ¬(exponent = 0 ∧ fraction = 0) := by omega
  have hspecial : ¬(exponent = 0 ∨ exponent = 2047) := by omega
  simp only [binary64Value, binary64_sign_eq_false hb hlt hf, binary64_exponent hb hlt hf, binary64_fraction hb hf,
    if_neg hzero, if_neg hspecial, Bool.false_eq_true, if_false, one_mul]

end Layout

section Ratio

/-! `k` is the place of the most significant 1 bit of `n`. -/

variable {n : Word} {k : Nat} (hlo : 2 ^ k ≤ n.toNat) (hhi : n.toNat < 2 ^ (k + 1))

include hlo in
theorem msb_le_31 : k ≤ 31 := by
  have hpow : 2 ^ k < 2 ^ 32 := hlo.trans_lt n.isLt
  have := (Nat.pow_lt_pow_iff_right one_lt_two).mp hpow
  omega

include hlo in
/-- R125: `1.fraction` scaled by the exponent is the ratio, with no rounding. -/
theorem ratio_eq_scaled :
    (2 : ℚ) ^ (((991 + k : ℕ) : ℤ) - 1023) * (1 + (((n.toNat - 2 ^ k) * 2 ^ (52 - k) : ℕ) : ℚ) / 2 ^ 52) =
      (n.toNat : ℚ) / 2 ^ 32 := by
  have hk := msb_le_31 hlo
  have hscale : (2 : ℚ) ^ (((991 + k : ℕ) : ℤ) - 1023) = 2 ^ k / 2 ^ 32 := by
    have hexponent : ((991 + k : ℕ) : ℤ) - 1023 = (k : ℤ) - (32 : ℕ) := by omega
    rw [hexponent, zpow_sub₀ two_ne_zero, zpow_natCast, zpow_natCast]
  have hsplit : (2 : ℚ) ^ 52 = 2 ^ k * 2 ^ (52 - k) := by rw [← pow_add, Nat.add_sub_cancel' (by omega)]
  rw [hscale, hsplit]
  push_cast [hlo]
  field_simp
  ring

include hlo hhi

/-- R125: the bits of `n` below the leading one, moved up to the 52 fraction bits, fit there. -/
theorem scaledFraction_lt : (n.toNat - 2 ^ k) * 2 ^ (52 - k) < 2 ^ 52 := by
  have hk := msb_le_31 hlo
  have hbelow : n.toNat - 2 ^ k < 2 ^ k := by omega
  calc (n.toNat - 2 ^ k) * 2 ^ (52 - k) < 2 ^ k * 2 ^ (52 - k) := Nat.mul_lt_mul_of_pos_right hbelow (by positivity)
    _ = 2 ^ 52 := by rw [← pow_add, Nat.add_sub_cancel' (by omega)]

/-- R125: the pattern as a number, cut to 64 bits without loss. -/
theorem f64OfRatio_toNat : (f64OfRatio n).toNat = (991 + k) * 2 ^ 52 + (n.toNat - 2 ^ k) * 2 ^ (52 - k) := by
  have hk := msb_le_31 hlo
  have hfraction := scaledFraction_lt hlo hhi
  have hpos : n.toNat ≠ 0 := (lt_of_lt_of_le (by positivity) hlo).ne'
  have hn : n ≠ 0 := by rintro rfl; exact hpos rfl
  have hlog : n.toNat.log2 = k := (Nat.log2_eq_iff hpos).mpr ⟨hlo, hhi⟩
  simp only [f64OfRatio, if_neg hn, hlog, BitVec.toNat_ofNat]
  omega

theorem binary64Value_f64OfRatio_of_msb : binary64Value (f64OfRatio n) = some ((n.toNat : ℚ) / 2 ^ 32) := by
  have hk := msb_le_31 hlo
  rw [binary64Value_normal (f64OfRatio_toNat hlo hhi) (by omega) (scaledFraction_lt hlo hhi), ratio_eq_scaled hlo]

/-- R125: a word has 32 bits, so the 21 lowest of the 52 fraction bits stay empty. -/
theorem f64OfRatio_low_zeros : (f64OfRatio n).extractLsb' 0 21 = 0 := by
  have hk := msb_le_31 hlo
  have hshift : 2 ^ 21 ∣ 2 ^ (52 - k) := pow_dvd_pow 2 (by omega)
  have hdvd : 2 ^ 21 ∣ (f64OfRatio n).toNat := by
    rw [f64OfRatio_toNat hlo hhi]
    exact dvd_add ((pow_dvd_pow 2 (by decide)).mul_left _) (hshift.mul_left _)
  apply BitVec.eq_of_toNat_eq
  rw [BitVec.extractLsb'_toNat, Nat.shiftRight_zero]
  exact Nat.mod_eq_zero_of_dvd hdvd

end Ratio

/-- A word other than 0 has a most significant 1 bit. -/
theorem exists_msb {n : Word} (hn : n ≠ 0) : ∃ k, 2 ^ k ≤ n.toNat ∧ n.toNat < 2 ^ (k + 1) :=
  ⟨n.toNat.log2, (Nat.log2_eq_iff fun h => hn (BitVec.eq_of_toNat_eq h)).mp rfl⟩

/-- R124, R125: the pattern stands for the ratio exactly, zero included. -/
theorem binary64Value_f64OfRatio (n : Word) : binary64Value (f64OfRatio n) = some ((n.toNat : ℚ) / 2 ^ 32) := by
  by_cases hn : n = 0
  · subst hn
    simp [f64OfRatio, binary64Value]
  · obtain ⟨k, hlo, hhi⟩ := exists_msb hn
    exact binary64Value_f64OfRatio_of_msb hlo hhi

/-- R124: no result of RAND is negative, nor the zero with a sign. -/
theorem f64OfRatio_sign_eq_false (n : Word) : (f64OfRatio n).getLsbD 63 = false := by
  by_cases hn : n = 0
  · subst hn
    decide
  · obtain ⟨k, hlo, hhi⟩ := exists_msb hn
    have hk := msb_le_31 hlo
    exact binary64_sign_eq_false (f64OfRatio_toNat hlo hhi) (by omega) (scaledFraction_lt hlo hhi)

/-- Settles O44: the pattern is the number `exponent * 2^52 + fraction`, from which each field is read off. -/
theorem binary64PatternFields : Obligations.Binary64PatternFields := by
  refine ⟨rfl, binary64Value_f64OfRatio, fun n k hlo hhi => ?_⟩
  have hk := msb_le_31 hlo
  have hfraction := scaledFraction_lt hlo hhi
  have hpattern := f64OfRatio_toNat hlo hhi
  exact ⟨hk, f64OfRatio_sign_eq_false n, binary64_exponent hpattern (by omega) hfraction,
    binary64_fraction hpattern hfraction, hpattern, f64OfRatio_low_zeros hlo hhi⟩

/-- Settles O7: RAND answers the pattern of the new word, and a word over `2^32` is below 1. -/
theorem randReturnsExactRatio : Obligations.RandReturnsExactRatio := by
  refine ⟨encode_rand, fun s => ⟨_, f64OfRatio s.regs.newWord, exec_eq .rand s, rfl, rfl,
    binary64Value_f64OfRatio _, by positivity, ?below, f64OfRatio_sign_eq_false _, rfl, rfl, rfl, rfl⟩⟩
  case below =>
    rw [div_lt_one (by positivity)]
    exact_mod_cast s.regs.newWord.isLt

/-! ## RANDINT (R122, R123) -/

/-- R122: a bound not below `n` leaves `n`. -/
theorem boundedDraw_of_le {n high : Word} (h : n.toNat ≤ high.toNat) : boundedDraw n high = n := by
  apply BitVec.eq_of_toNat_eq
  rw [boundedDraw_toNat, Nat.mod_eq_of_lt (Nat.lt_succ_of_le h)]

/-- R122: a modulus of `2^k` keeps the low `k` bits. -/
theorem getLsbD_boundedDraw_of_pow {n high : Word} {k : Nat} (h : high.toNat = 2 ^ k - 1) (j : Nat) :
    (boundedDraw n high).getLsbD j = (decide (j < k) && n.getLsbD j) := by
  have hmodulus : high.toNat + 1 = 2 ^ k := by rw [h, Nat.sub_add_cancel Nat.one_le_two_pow]
  rw [BitVec.getLsbD, boundedDraw_toNat, hmodulus, Nat.testBit_mod_two_pow]
  rfl

/-- Settles O43: modulus 1 keeps no bit, and the greatest bound is below no word. -/
theorem randintCornerCases : Obligations.RandintCornerCases := by
  intro s high
  refine ⟨_, _, exec_eq (.randint high) s, rfl, rfl, ?zero, ?full, boundedDraw_of_le,
    fun k _ h => getLsbD_boundedDraw_of_pow h⟩
  case zero =>
    rintro rfl
    exact congrArg (BitVec.ofNat 32) (Nat.mod_one s.regs.newWord.toNat)
  case full =>
    rintro rfl
    exact boundedDraw_of_le (Nat.le_of_lt_succ s.regs.newWord.isLt)

/-- Settles O6: the draw is the remainder, which the modulus bounds. -/
theorem randintReturnsRemainder : Obligations.RandintReturnsRemainder := by
  intro high s
  have hdraw := boundedDraw_toNat s.regs.newWord high
  have hle : (boundedDraw s.regs.newWord high).toNat ≤ high.toNat := by
    rw [hdraw]
    exact Nat.le_of_lt_succ (Nat.mod_lt _ high.toNat.succ_pos)
  exact ⟨encode_randint high, _, _, exec_eq (.randint high) s, rfl, rfl, hdraw, hle, rfl, rfl, rfl, rfl⟩

/-! ## MIN, MAX and STATE (R120, R121, R126) -/

/-- Settles O4: the constant 0, whatever the registers hold. -/
theorem minReturnsZero : Obligations.MinReturnsZero :=
  ⟨encode_min, fun s => ⟨_, exec_eq .min s, rfl, rfl, rfl, rfl, rfl, rfl⟩⟩

/-- Settles O5: the constant with every bit 1, whatever the registers hold. -/
theorem maxReturnsAllOnes : Obligations.MaxReturnsAllOnes :=
  ⟨encode_max, fun s => ⟨_, exec_eq .max s, rfl, rfl, rfl, rfl, rfl, rfl⟩⟩

/-- Settles O8: the registers' words, in order. -/
theorem stateReturnsFourWords : Obligations.StateReturnsFourWords :=
  ⟨encode_state, fun s => ⟨_, exec_eq .state s, rfl, rfl, rfl, rfl, rfl, rfl⟩⟩

/-! ## Snapshot and restore (R127) -/

/-- Settles O31: STATE leaves the registers and LDST of its words brings them back, so the list runs from the same
registers both times. -/
theorem snapshotRestoreReplays : Obligations.SnapshotRestoreReplays := by
  have restore (S : RegFile) (is : List Instr) (u : State) : runCommands (.ldst [S.s0, S.s1, S.s2, S.s3] :: is) u =
      runCommands is { u with regs := S, outbound := u.outbound ++ [0x00000000#32] } := by
    rw [runCommands, exec_ldst_four]
  refine ⟨fun a b c d s => ?readBack, fun is s u => ?replay⟩
  case readBack =>
    have hrun := (restore ⟨a, b, c, d⟩ [.state] s).trans (runCommands_cons .state [] _)
    exact ⟨_, hrun, List.append_assoc .., rfl⟩
  case replay =>
    obtain ⟨S', r, hrun⟩ := runCommands_of_regs is s.regs
    have snapshot := (runCommands_cons .state is s).trans (hrun _ rfl)
    exact ⟨_, _, r, snapshot, (restore s.regs is u).trans (hrun _ rfl), rfl, rfl, rfl⟩

end Sys2Proof.Machine

/-! PROOFS. The exceptions (60_exceptions.md): which headers spell no command, and what the machine answers them. -/

namespace Sys2Proof.Machine

/-- R60: a whole command whose words the decoder rejects is a rejected command. -/
theorem decodeCommand_of_decode_error {c : Command} (hwhole : c.payload.length = payloadLen c.header)
    {rest : List Word} {e : DecodeError} (h : decode (c.words ++ rest) = .error e) : decodeCommand c = .error e := by
  rw [decode_words hwhole rest] at h
  cases hc : decodeCommand c with
  | ok i => simp [hc, Except.map] at h
  | error e' => simpa [hc, Except.map] using h

/-- R142: the three causes of ILLEGAL_COMMAND are those of tests 1, 2 and 4 of the decode function (R65). -/
theorem decode_eq_error_of_illegalHeader {h : Word} {payload : List Word} (hlen : payload.length = h.toNat / 256 % 256)
    (hillegal : h.toNat / 65536 ≠ 0 ∨ h.toNat % 256 = 0 ∨ 9 ≤ h.toNat % 256 ∨
      ((h.toNat % 256 = 1 ∨ h.toNat % 256 = 6) ∧ h.toNat / 256 % 256 ≠ 1) ∨
      (h.toNat % 256 ∈ [3, 4, 5, 7, 8] ∧ h.toNat / 256 % 256 ≠ 0)) :
    ∃ e, decode (h :: payload ++ []) = .error e := by
  obtain ⟨test1, test2, -, test4one, test4none, -⟩ := decodeFollowsTestOrder h payload [] hlen
  by_cases hrsv : h.toNat / 65536 = 0
  · rcases hillegal with hr | hop | hop | ⟨hop, hl⟩ | ⟨hop, hl⟩
    · exact absurd hrsv hr
    · exact ⟨_, test2 hrsv (.inl hop)⟩
    · exact ⟨_, test2 hrsv (.inr hop)⟩
    · exact ⟨_, test4one hrsv hop hl⟩
    · exact ⟨_, test4none hrsv hop hl⟩
  · exact ⟨_, test1 hrsv⟩

/-- Settles O15: the decoder rejects the words, so the step receives the command and raises ILLEGAL_COMMAND. -/
theorem illegalHeaderIsAnswered : Obligations.IllegalHeaderIsAnswered := by
  intro s h payload ws evs op len rsv hlen hws hwords hin hillegal
  have hwhole : payload.length = payloadLen h := hlen.trans (payloadLen_eq h).symm
  obtain ⟨e, hdec⟩ := decode_eq_error_of_illegalHeader hlen hillegal
  have hrejected : decodeCommand ⟨h, payload⟩ = .error e := decodeCommand_of_decode_error hwhole hdec
  have hstep := (step_received (c := ⟨h, payload⟩) hwhole hws hwords hin).trans (runCommand_error hrejected _)
  exact ⟨_, hstep, rfl, congrArg (fun w => s.outbound ++ [w]) statusWord_illegalCommand, rfl, rfl, rfl, rfl⟩

end Sys2Proof.Machine

/-! PROOFS. Reset and hazards (70_reset_and_hazards.md): what reset leaves, what it cuts short, and what a host that keeps the
boot order can learn. -/

namespace Sys2Proof.Machine

/-! ## What the machine holds after reset (R170, R171) -/

/-- Settles O48, field by field: each is what `State.reset` writes. -/
theorem resetStateFields : Obligations.ResetStateFields :=
  ⟨rfl, rfl, rfl, rfl, rfl⟩

/-- Settles O23: reset leaves the receive buffer empty. -/
theorem resetMeetsReceivingInv : Obligations.ResetMeetsReceivingInv := by
  obtain ⟨-, hreceiving, -⟩ := resetStateFields
  exact State.receivingInv_of_none hreceiving

/-- Settles O46: receiving comes to `rst` at once, and the step is `resetPin`. -/
theorem resetPinAbandonsEverything : Obligations.ResetPinAbandonsEverything := by
  intro s evs hin
  have hstep : step s = .next { s.resetPin with inbound := evs } := by rw [step, hin, fetch_reset]
  exact ⟨_, hstep, rfl, rfl, rfl, rfl, rfl, rfl⟩

/-! ## What reset cuts short, and what it cannot take back (R177) -/

/-- Settles O24: receiving only adds to the words transferred, and neither `resetPin` nor a command touches them. -/
theorem transferredResponsesStay : Obligations.TransferredResponsesStay := by
  intro s t hstep
  rcases step_cases hstep with ⟨c, u, hfetch, hrun⟩ | hfetch | hfetch
  · obtain ⟨hreceived, -⟩ := fetch_eq_command hfetch
    obtain ⟨S, r, rfl⟩ := runCommand_eq_next hrun
    exact hreceived.grows
  · obtain ⟨u, hreceived, ht, -⟩ := fetch_eq_wasReset hfetch
    rw [ht]
    exact hreceived.grows
  · obtain ⟨hreceived, -⟩ := fetch_eq_waiting hfetch
    exact hreceived.grows

/-- R170, R177: `rst` before the last word of a command. The words received count for nothing, and of the response queue only
what the host accepted on the way is sent. -/
theorem step_reset_of_incomplete {s : State} {before evs : List HostEvent} (hn : NoReset before)
    (hin : s.inbound = before ++ .reset :: evs)
    (hw : ∀ h payload, s.receivedWords ++ wordsOf before = h :: payload → payload.length < payloadLen h) :
    step s = .next
      { regs := RegFile.afterReset (s.resets + 1), receiving := none, inbound := evs, outbound := [],
        responses := s.responses ++ s.outbound.take (before.count .accept), resets := s.resets + 1 } := by
  obtain ⟨o, hfetch⟩ := fetch_incomplete before (.reset :: evs) s hn hw
  rw [step, hin, hfetch, fetch_reset]
  rfl

/-- The host's accepts carry no command word. -/
theorem wordsOf_filter_accept (evs : List HostEvent) : wordsOf (evs.filter (· = .accept)) = [] := by
  induction evs with
  | nil => rfl
  | cons e evs ih => cases e <;> simpa [wordsOf] using ih

/-- Settles O47: with the words and without them, the step is the reset after the same number of accepts. -/
theorem resetInsideCommandDiscardsIt : Obligations.ResetInsideCommandDiscardsIt := by
  intro s before evs hn hin hw
  have hstep := step_reset_of_incomplete hn hin (by simpa only [payloadLen_eq] using hw)
  refine ⟨?withoutWords, _, hstep, rfl, rfl, rfl, rfl, rfl, rfl⟩
  case withoutWords =>
    have hn' : NoReset (before.filter (· = .accept)) := by simp [NoReset]
    rw [hstep, step_reset_of_incomplete hn' rfl (by simp [State.receivedWords, wordsOf_filter_accept]),
      List.count_filter (by simp)]

/-! ## The boot order (R172, R173) -/

/-- R172: the first command of a list that keeps the boot order answers the same whatever the registers hold. It either
writes them, with words of its own, or leaves them, and then the rest of the list keeps the boot order too. -/
theorem obeysBootOrder_cons_cases {i : Instr} {is : List Instr} (h : obeysBootOrder false (i :: is) = true) :
    ∃ r, (∀ S, responseTo i S = r) ∧
      ((∃ S', ∀ S, regsAfter i S = S') ∨
        ((∀ S, regsAfter i S = S) ∧ obeysBootOrder false is = true ∧ initialises (i :: is) = initialises is)) := by
  cases i with
  | seed v => exact ⟨_, fun _ => rfl, .inl ⟨expandSeed v, fun _ => rfl⟩⟩
  | ldst words =>
    refine ⟨_, fun _ => rfl, ?_⟩
    have hlen := RegFile.ofWords_isSome words
    cases hw : RegFile.ofWords words with
    | some S' => exact .inl ⟨S', fun S => by simp [regsAfter, hw]⟩
    | none =>
      have hne : words.length ≠ 4 := by simpa [hw] using hlen
      exact .inr ⟨fun S => by simp [regsAfter, hw], by simpa [obeysBootOrder, hne] using h, by simp [initialises, hne]⟩
  | min | max => exact ⟨_, fun _ => rfl, .inr ⟨fun _ => rfl, h, rfl⟩⟩
  | next | randint | rand | state => simp [obeysBootOrder] at h

/-- Settles O32, by induction on the list: until a command writes the registers both runs answer alike, and from there on
they run from the same registers. -/
theorem bootOrderHidesRegisters : Obligations.BootOrderHidesRegisters := by
  intro is
  induction is with
  | nil => exact fun s s' _ => ⟨s, s', [], rfl, rfl, by simp, by simp, by simp [initialises]⟩
  | cons i is ih =>
    intro s s' h
    obtain ⟨r, hresponse, ⟨S, hwritten⟩ | ⟨hkept, hrest, hinit⟩⟩ := obeysBootOrder_cons_cases h
    · obtain ⟨S', rest, hrun⟩ := runCommands_of_regs is S
      have fromFirst (u : State) : runCommands (i :: is) u =
          .next { u with regs := S', outbound := u.outbound ++ (r ++ rest) } := by
        rw [runCommands_cons, hresponse, hwritten, hrun _ rfl, List.append_assoc]
      exact ⟨_, _, _, fromFirst s, fromFirst s', rfl, rfl, fun _ => rfl⟩
    · have fromFirst (u : State) : runCommands (i :: is) u = runCommands is { u with outbound := u.outbound ++ r } := by
        rw [runCommands_cons, hresponse, hkept]
      obtain ⟨t, t', rest, ht, ht', hout, hout', hregs⟩ :=
        ih { s with outbound := s.outbound ++ r } { s' with outbound := s'.outbound ++ r } hrest
      exact ⟨t, t', r ++ rest, (fromFirst s).trans ht, (fromFirst s').trans ht', by simp [hout], by simp [hout'],
        fun hi => hregs (hinit ▸ hi)⟩

end Sys2Proof.Machine
